-- ==== Sys2Proof/Word.lean ====
section
/-! DEFINITION. The widths of the block: bytes, 64-bit words and the 16-bit command word
(`00_scope.md` R7, R8, R10). All quantities are unsigned. -/

namespace Sys2Proof

/-- A byte, 0..255 (R10). -/
abbrev Byte := BitVec 8

/-- A word of `h`, `t`, `f`, `v`, `m`: 64 bits, unsigned; `+` wraps modulo 2^64 (R7, R11). -/
abbrev Word := BitVec 64

/-- A command word, `CMDW` = 16 bits (R8, R70). -/
abbrev CmdWord := BitVec 16

/-- `ONES`, the word with every bit set (R10). -/
abbrev ones : Word := 0xFFFFFFFFFFFFFFFF

end Sys2Proof
end

