-- ==== Sys2Proof/Config.lean ====
section
/-! DEFINITION. Constants the document fixes (`00_scope.md` R7) and the two parameters it leaves
open (R9). Nothing of the block is undefined (`60_exceptions.md` R191), so there is no free value.
The other widths of R7 and R8 stand in the types of `Word.lean` and `Machine/State.lean`. -/

namespace Sys2Proof.Config

/-- `ROUNDS`: rounds per compression (R7). -/
abbrev rounds : Nat := 12

/-- `NSIGMA`: distinct permutations; round `r` uses `SIGMA[r mod 10]` (R7). -/
abbrev nSigma : Nat := 10

/-- `KEYLEN`: parameter-block byte 1 (R7). -/
abbrev keyLen : Byte := 0

/-- `FANOUT`: parameter-block byte 2 (R7). -/
abbrev fanout : Byte := 1

/-- `DEPTH`: parameter-block byte 3 (R7). -/
abbrev depth : Byte := 1

end Sys2Proof.Config

namespace Sys2Proof

/-- The parameters left open, which the model takes as arguments (R9, D20, D23; log entry 8).
The defaults are those of R9. -/
structure Config where
  /-- `MAX_PAYLOAD`: the longest payload the host interface carries; `none` is unbounded. -/
  maxPayload : Option Nat := none
  /-- `N_ENGINES`: how many independent instances of the block the system holds. -/
  nEngines : Nat := 1
  deriving DecidableEq, Repr

/-- The host can carry a payload of this many bytes (R9; `93_implementation_defined.md` U15). -/
def Config.carries (cfg : Config) (n : Nat) : Bool :=
  match cfg.maxPayload with
  | none => true
  | some m => decide (n ≤ m)

end Sys2Proof
end

