-- ==== Sys2Proof/Machine/Bytes.lean ====
section
/-! DEFINITION. Rotation and byte order: `rotr`, `le64`, `le64_bytes` and slices of byte strings
(`00_scope.md` R10 to R12), and reading a byte string from a hexadecimal numeral. -/

namespace Sys2Proof.Machine

/-- Right rotation of a word by `0 < n < 64` (R11). -/
def rotr (a : Word) (n : Nat) : Word := (a >>> n) ||| (a <<< (64 - n))

/-- The unsigned little-endian value of a byte string (R12, R13). -/
def leNat : List Byte → Nat
  | [] => 0
  | b :: bs => b.toNat + 256 * leNat bs

/-- `le64`: eight bytes to a word, least significant first (R12). -/
def le64 (b0 b1 b2 b3 b4 b5 b6 b7 : Byte) : Word :=
  BitVec.ofNat 64 (leNat [b0, b1, b2, b3, b4, b5, b6, b7])

/-- Byte `i` of a word, bits `8i+7 : 8i` (R12). -/
def byteOf (w : Word) (i : Nat) : Byte := w.extractLsb' (8 * i) 8

/-- `le64_bytes`: a word to eight bytes, least significant first (R12). -/
def le64Bytes (w : Word) : List Byte :=
  [byteOf w 0, byteOf w 1, byteOf w 2, byteOf w 3, byteOf w 4, byteOf w 5, byteOf w 6, byteOf w 7]

/-- `zeros(n)` (R10). -/
def zeros (n : Nat) : List Byte := List.replicate n 0

/-- The byte string of `n` bytes that a hexadecimal numeral of `2n` digits writes, first byte first
(R10). -/
def hexBytes (n : Nat) (digits : Nat) : List Byte :=
  (List.range n).map fun i => BitVec.ofNat 8 (digits / 256 ^ (n - 1 - i))

end Sys2Proof.Machine
end

