-- ==== Sys2Proof/Machine/State.lean ====
section
/-! DEFINITION. The state of one engine instance (`10_state.md` R20: exactly seven items), the host
interface around it, the reasons a step can stop, and the state after reset (R37). -/

namespace Sys2Proof.Machine

/-- `phase`, the driver's state (R27). Value 3 is never produced, so it is not represented
(`93_implementation_defined.md` U10; log entry 5). -/
inductive Phase where
  | idle
  | active
  | done
  deriving DecidableEq, Repr

/-- A pair of 64-bit words, `x[0]` low and `x[1]` high (R22, R23). -/
structure WordPair where
  low : Word
  high : Word
  deriving DecidableEq, Repr

/-- The architectural state of one engine instance, the seven items of R20 and nothing else. -/
structure Engine where
  /-- `h[0..7]`, chaining values (R21). -/
  h : Vector Word 8
  /-- `t[0..1]`, the 128-bit byte counter (R22). -/
  t : WordPair
  /-- `f[0..1]`, finalization flags (R23). -/
  f : WordPair
  /-- `buf[0..127]`, the block buffer (R24, `20_memory.md` R51). -/
  buf : Vector Byte 128
  /-- `buflen`, pending bytes, 0..128 (R25; log entry 5). -/
  buflen : Fin 129
  /-- `outlen`, the digest size of the session, 0..64 (R26; log entry 5). -/
  outlen : Fin 65
  /-- `phase` (R27). -/
  phase : Phase
  deriving DecidableEq, Repr

/-- The four response statuses; codes 4..15 are never produced (`60_exceptions.md` R180). -/
inductive Status where
  | ok
  | errRange
  | errSeq
  | errIllegal
  deriving DecidableEq, Repr

/-- A response: a status and a byte string (`30_encoding.md` R74). -/
structure Response where
  status : Status
  payload : List Byte
  deriving DecidableEq, Repr

/-- What the host can do to the engine (`00_scope.md` R6, R16; `70_reset_and_hazards.md` R210,
R212). -/
inductive HostMove where
  /-- Present a command: a 16-bit word and a payload (`30_encoding.md` R70). -/
  | command (cmd : CmdWord) (payload : List Byte)
  /-- Reset the instance between commands (R210). -/
  | reset
  /-- Present a command and let reset strike while it executes: its response is lost (R212). -/
  | commandCutByReset (cmd : CmdWord) (payload : List Byte)
  deriving DecidableEq, Repr

/-- The machine: the engine and its host's side of the interface. -/
structure State where
  /-- The seven registers of R20. -/
  engine : Engine
  /-- The host's moves still to be made, next first: its program (log entry 2). -/
  host : List HostMove
  /-- The responses returned so far, newest first: the host's record (R74, R187; log entry 3). -/
  responses : List Response
  deriving DecidableEq, Repr

/-- The block has no fault: every command is answered in every phase (`60_exceptions.md` R187,
R191; log entry 7). -/
inductive Fault where
  deriving DecidableEq, Repr

/-- Why a command could be refused by the model. -/
inductive Refusal where
  /-- Raised by `exec` for a command without a meaning in the model; safe. No arm raises it. -/
  | notModelled (mnemonic : String)
  deriving DecidableEq, Repr

/-- The registers right after reset (R37; `70_reset_and_hazards.md` R210). -/
def Engine.reset : Engine where
  h := Vector.replicate 8 0
  t := ⟨0, 0⟩
  f := ⟨0, 0⟩
  buf := Vector.replicate 128 0
  buflen := 0
  outlen := 0
  phase := .idle

/-- The machine right after reset: the registers as R37 says, no host move waiting (log entry 2)
and no response given (log entry 3). -/
def State.reset : State where
  engine := Engine.reset
  host := []
  responses := []

end Sys2Proof.Machine
end

