-- ==== Sys2Proof/Machine/Tables.lean ====
section
/-! DEFINITION. The hardwired tables `IV`, `SIGMA` and the `G` index groups
(`41_compression_engine.md` R131 to R133). No command and no reset changes them (`10_state.md` R33).
Their values are the spec's from general knowledge, K1, K2, K5 (log entry 13). -/

namespace Sys2Proof.Machine

/-- `IV[0..7]` (R131). -/
def iv : Vector Word 8 :=
  #v[0x6A09E667F3BCC908, 0xBB67AE8584CAA73B, 0x3C6EF372FE94F82B, 0xA54FF53A5F1D36F1,
     0x510E527FADE682D1, 0x9B05688C2B3E6C1F, 0x1F83D9ABFB41BD6B, 0x5BE0CD19137E2179]

/-- `SIGMA[0..9][0..15]` (R132). -/
def sigma : Vector (Vector (Fin 16) 16) 10 :=
  #v[#v[0, 1, 2, 3, 4, 5, 6, 7, 8, 9, 10, 11, 12, 13, 14, 15],
     #v[14, 10, 4, 8, 9, 15, 13, 6, 1, 12, 0, 2, 11, 7, 5, 3],
     #v[11, 8, 12, 0, 5, 2, 15, 13, 10, 14, 3, 6, 7, 1, 9, 4],
     #v[7, 9, 3, 1, 13, 12, 11, 14, 2, 6, 5, 10, 4, 0, 15, 8],
     #v[9, 0, 5, 7, 2, 4, 10, 15, 14, 1, 11, 12, 6, 8, 3, 13],
     #v[2, 12, 6, 10, 0, 11, 8, 3, 4, 13, 7, 5, 15, 14, 1, 9],
     #v[12, 5, 1, 15, 14, 13, 4, 10, 0, 7, 6, 3, 9, 2, 8, 11],
     #v[13, 11, 7, 14, 12, 1, 3, 9, 5, 0, 15, 4, 8, 6, 2, 10],
     #v[6, 15, 14, 9, 11, 3, 0, 8, 12, 2, 13, 7, 1, 4, 10, 5],
     #v[10, 2, 8, 4, 7, 6, 1, 5, 15, 11, 9, 14, 3, 12, 13, 0]]

/-- The row of `SIGMA` that round `r` uses: row `r mod 10` (R132). -/
def sigmaRow (r : Nat) : Vector (Fin 16) 16 :=
  sigma[r % Config.nSigma]'(Nat.mod_lt r (by decide))

/-- The four words of `v` that one call of `G` works on. -/
structure GGroup where
  a : Fin 16
  b : Fin 16
  c : Fin 16
  d : Fin 16
  deriving DecidableEq, Repr

/-- The index groups of the eight `G` calls of a round: four columns, then four diagonals
(R133). -/
def gGroups : Vector GGroup 8 :=
  #v[⟨0, 4, 8, 12⟩, ⟨1, 5, 9, 13⟩, ⟨2, 6, 10, 14⟩, ⟨3, 7, 11, 15⟩,
     ⟨0, 5, 10, 15⟩, ⟨1, 6, 11, 12⟩, ⟨2, 7, 8, 13⟩, ⟨3, 4, 9, 14⟩]

end Sys2Proof.Machine
end

