-- ==== Sys2Proof/Machine/Operands.lean ====
section
/-! DEFINITION. Operand and result forms: the digest size of `INIT` and its range check
(`30_encoding.md` R72, `40_driver.md` R102), the parameter block (`20_memory.md` R55), and the
digest that `FINAL` returns and `CTEQ` compares (`20_memory.md` R54, `40_driver.md` R109). -/

namespace Sys2Proof.Machine

/-- `size_ok(k)`, the Parameter Validator, on any integer: `OUT_MIN` = 1, `OUT_MAX` = 64 (R102,
`00_scope.md` R7). In `INIT`, `k` is `arg` as an unsigned number, with no scaling (R72). -/
abbrev SizeOk (k : Int) : Prop := 1 ≤ k ∧ k ≤ 64

/-- The 64-byte parameter block: digest length, key length, fanout, depth, and zeros
(R55, `40_driver.md` R104). -/
def parameterBlock (size : Byte) : List Byte :=
  [size, Config.keyLen, Config.fanout, Config.depth] ++ zeros 60

/-- `parameterWord[i]`: parameter-block bytes `8i … 8i+7`, little-endian (R55). -/
def parameterWord (size : Byte) (i : Nat) : Word :=
  BitVec.ofNat 64 (leNat (((parameterBlock size).drop (8 * i)).take 8))

/-- The chaining value of a fresh session: `h[i] = IV[i] xor parameterWord[i]` (R104). -/
def initialH (size : Byte) : Vector Word 8 :=
  Vector.ofFn fun i => iv[i] ^^^ parameterWord size i.val

/-- `digest_bytes(h, k)`: the words of `h` serialised little-endian and cut to `k` bytes (R109). -/
def digestBytes (h : Vector Word 8) (k : Nat) : List Byte :=
  (h.toList.flatMap le64Bytes).take k

/-- The digest held by the engine: `digest_bytes(h, outlen)` (R109). -/
def Engine.digest (e : Engine) : List Byte := digestBytes e.h e.outlen.val

end Sys2Proof.Machine
end

