-- ==== Sys2Proof/Syntax.lean ====
section
/-! DEFINITION. The commands of the block: one constructor per row of `spec/opcode_table.json`
(`30_encoding.md` R73, R75). The payload that travels with a command is an operand of it. -/

namespace Sys2Proof

/-- The four commands, as `decode` of `30_encoding.md` R78 returns them. -/
inductive Instr where
  /-- `INIT k`: `arg` is the requested digest size, 8 bits unsigned; no payload (R72, R104). -/
  | init (arg : Byte)
  /-- `UPDATE data`: the payload is the next bytes of the message, any length (R73, R105). -/
  | update (data : List Byte)
  /-- `FINAL`: no argument, no payload (R73, R110). -/
  | final
  /-- `CTEQ tag`: the payload is the candidate tag, any length (R73, R162). -/
  | cteq (tag : List Byte)
  deriving DecidableEq, Repr

/-- The payload bytes that travel with the command (R73). -/
def Instr.payload : Instr → List Byte
  | .init _ => []
  | .update data => data
  | .final => []
  | .cteq tag => tag

end Sys2Proof
end

