-- ==== Sys2Proof/WellFormed.lean ====
section
/-! DEFINITION. Which commands the host can present: every argument is a command (a digest size out
of range is a command, rejected when it runs, `95_test_vectors.md` V50), and a payload must fit the
host interface (`00_scope.md` R9, `93_implementation_defined.md` U15). -/

namespace Sys2Proof

/-- The command can be presented under `cfg`: its payload fits `MAX_PAYLOAD` (R9, R70). -/
def Instr.wellFormed (cfg : Config) (i : Instr) : Bool :=
  cfg.carries i.payload.length

end Sys2Proof
end

