-- ==== Sys2Proof/Decode.lean ====
section
/-! DEFINITION. The decoder of `30_encoding.md` R78, total on every 16-bit word and payload, the
encoder of R75, and the opcode map of R75 as data. -/

namespace Sys2Proof

/-! ### Fields of the command word (R71) -/

/-- `op`, bits 15:12. -/
def opField (cmd : CmdWord) : BitVec 4 := cmd.extractLsb' 12 4

/-- `rsv`, bits 11:8, reserved, must be 0000. -/
def rsvField (cmd : CmdWord) : BitVec 4 := cmd.extractLsb' 8 4

/-- `arg`, bits 7:0. -/
def argField (cmd : CmdWord) : Byte := cmd.extractLsb' 0 8

/-- `cmd[15:8]`, the high byte of the word, second in the info payload of `ERR_ILLEGAL` (R71, R84). -/
def highByte (cmd : CmdWord) : Byte := cmd.extractLsb' 8 8

/-! ### Decoding -/

/-- Why a command is illegal, by the cases of R76. The host sees one status for all (R84); the
names are the model's (log entry 11). -/
inductive IllegalCause where
  /-- Case 2: `rsv` ≠ 0000. -/
  | reservedBits
  /-- Case 1: `op` = 0x0 or 0x5..0xF. -/
  | unassignedOp
  /-- Case 3: `arg` ≠ 0 on `UPDATE`, `FINAL` or `CTEQ`. -/
  | argumentNotZero
  /-- Case 4: a payload on `INIT` or `FINAL`. -/
  | payloadNotEmpty
  deriving DecidableEq, Repr

/-- What the decoder answers: a command, or an illegal one by name. -/
inductive Decoded where
  | instr (i : Instr)
  | illegal (cause : IllegalCause)
  deriving DecidableEq, Repr

/-- The decode procedure, its tests in the order of R78. -/
def decode (cmd : CmdWord) (payload : List Byte) : Decoded :=
  if rsvField cmd ≠ 0 then .illegal .reservedBits
  else if opField cmd = 1 then
    if payload = [] then .instr (.init (argField cmd)) else .illegal .payloadNotEmpty
  else if opField cmd = 2 then
    if argField cmd = 0 then .instr (.update payload) else .illegal .argumentNotZero
  else if opField cmd = 3 then
    if argField cmd = 0 then
      if payload = [] then .instr .final else .illegal .payloadNotEmpty
    else .illegal .argumentNotZero
  else if opField cmd = 4 then
    if argField cmd = 0 then .instr (.cteq payload) else .illegal .argumentNotZero
  else .illegal .unassignedOp

/-- The decoder on a word numbered as `spec/opcode_table.json` numbers it, with an empty payload
(log entry 12). A command word has 16 bits and there is one length only (R70). -/
def decodeTableWord (nbits w : Nat) : Option Instr :=
  if nbits ≤ 16 then
    match decode (BitVec.ofNat 16 (w % 2 ^ nbits)) [] with
    | .instr i => some i
    | .illegal _ => none
  else none

/-! ### Encoding -/

/-- The command word of a command, bit 15 first as R75 writes it. -/
def encodeWord : Instr → CmdWord
  | .init arg => 0b00010000#8 ++ arg
  | .update _ => 0b0010000000000000#16
  | .final => 0b0011000000000000#16
  | .cteq _ => 0b0100000000000000#16

/-- The transaction `(cmd, payload)` that presents a command (R70, R75, R85). -/
def encode (i : Instr) : CmdWord × List Byte := (encodeWord i, i.payload)

/-! ### The opcode map as data (R75) -/

/-- One row of the opcode map: a word `w` selects the row iff `w and mask = match`. -/
structure TableRow where
  mnemonic : String
  pattern : CmdWord
  mask : CmdWord
  /-- A non-empty payload is allowed (R73). -/
  takesPayload : Bool
  deriving DecidableEq, Repr

/-- The complete map of R75, with the payload column of R73. -/
def opcodeTable : List TableRow :=
  [⟨"INIT", 0x1000, 0xFF00, false⟩,
   ⟨"UPDATE", 0x2000, 0xFFFF, true⟩,
   ⟨"FINAL", 0x3000, 0xFFFF, false⟩,
   ⟨"CTEQ", 0x4000, 0xFFFF, true⟩]

/-- The row is selected by the word and its payload rule is met (R75, R76). -/
def TableRow.selects (r : TableRow) (cmd : CmdWord) (payload : List Byte) : Bool :=
  decide (cmd &&& r.mask = r.pattern) && (r.takesPayload || payload.isEmpty)

/-- The row of a command. -/
def Instr.mnemonic : Instr → String
  | .init _ => "INIT"
  | .update _ => "UPDATE"
  | .final => "FINAL"
  | .cteq _ => "CTEQ"

end Sys2Proof
end

