-- ==== Sys2Proof/Machine/Ops.lean ====
section
/-! DEFINITION. The named operations over the registers, the block buffer and the host interface:
views of the narrow registers, `MemRead` and `MemWrite` (`00_scope.md` R13), `t_add`
(`40_driver.md` R103), `respond` and `raise` (R14), the reset event (`70_reset_and_hazards.md`
R210), and taking the host's next move. -/

namespace Sys2Proof.Machine

/-! ### Register encodings -/

/-- The 2-bit encoding of `phase` (`10_state.md` R27). -/
def Phase.code : Phase → BitVec 2
  | .idle => 0
  | .active => 1
  | .done => 2

/-- The 4-bit code of a status (`60_exceptions.md` R180). -/
def Status.code : Status → BitVec 4
  | .ok => 0
  | .errRange => 1
  | .errSeq => 2
  | .errIllegal => 3

/-- `buflen` as its 8 bits (`10_state.md` R25). -/
def Engine.buflenBits (e : Engine) : BitVec 8 := BitVec.ofNat 8 e.buflen.val

/-- `outlen` as its 7 bits (`10_state.md` R26). -/
def Engine.outlenBits (e : Engine) : BitVec 7 := BitVec.ofNat 7 e.outlen.val

/-- The 128-bit counter `T = t[0] + 2^64·t[1]` as a number (`10_state.md` R22). -/
def WordPair.value (t : WordPair) : Nat := t.low.toNat + 2 ^ 64 * t.high.toNat

/-! ### The block buffer -/

/-- `MemRead(a, n)`: the unsigned little-endian value of `buf[a], …, buf[a+n−1]` (R13). -/
def memRead (buf : Vector Byte 128) (a n : Nat) (_ : a + n ≤ 128) : Nat :=
  leNat ((buf.toList.drop a).take n)

/-- `MemWrite(a, n, e)`: the `n` low bytes of `e`, least significant first, to
`buf[a], …, buf[a+n−1]` (R13). -/
def memWrite (buf : Vector Byte 128) (a : Nat) :
    (n : Nat) → (e : Nat) → a + n ≤ 128 → Vector Byte 128
  | 0, _, _ => buf
  | n + 1, e, h => memWrite (buf.set a (BitVec.ofNat 8 e) (by omega)) (a + 1) n (e / 256) (by omega)

/-! ### The counter -/

/-- `t_add(c)`: the 128-bit counter advanced by `c`, with the carry of the low word into the high
word and wrap at 2^128 (R103, D17). -/
def tAdd (t : WordPair) (c : Nat) : WordPair :=
  let lo := t.low + BitVec.ofNat 64 c
  let carry : Word := if lo.toNat < c then 1 else 0
  ⟨lo, t.high + carry⟩

/-! ### Ending a command -/

/-- `respond(status, bytes)`: the command ends with this response (R14, `30_encoding.md` R74). -/
def respond (status : Status) (bytes : List Byte) (s : State) :
    Host.Outcome State Fault Refusal :=
  .next { s with responses := ⟨status, bytes⟩ :: s.responses }

/-- The causes of a rejection (`60_exceptions.md` R180). -/
inductive Rejection where
  /-- `ParameterOutOfRange(arg, 0x01, 0x40)` (R181). -/
  | parameterOutOfRange (arg : Byte)
  /-- `SequenceError(phase)` (R182). -/
  | sequenceError (phase : Phase)
  /-- `IllegalCommand(cmd[7:0], cmd[15:8])` (R183). -/
  | illegalCommand (cmd : CmdWord)
  deriving DecidableEq, Repr

/-- The status code of a rejection (R180). -/
def Rejection.status : Rejection → Status
  | .parameterOutOfRange _ => .errRange
  | .sequenceError _ => .errSeq
  | .illegalCommand _ => .errIllegal

/-- The recorded information of a rejection (R180, `30_encoding.md` R84). -/
def Rejection.info : Rejection → List Byte
  | .parameterOutOfRange arg => [arg, 0x01, 0x40]
  | .sequenceError phase => [phase.code.setWidth 8]
  | .illegalCommand cmd => [argField cmd, highByte cmd]

/-- `raise`, the block's exception entry: a response with the rejection's status and info, and no
change to any register; no handler, nothing saved, nothing to return from (R14, `60_exceptions.md`
R187, R188). -/
def raise (x : Rejection) (s : State) : Host.Outcome State Fault Refusal :=
  respond x.status x.info s

/-! ### The host's moves -/

/-- The reset event: every register takes its reset value; no response (`70_reset_and_hazards.md`
R210). What the host has recorded and what it will still do are not registers. -/
def resetEvent (s : State) : State := { s with engine := Engine.reset }

/-- The host's next move and the state from which it is made; `none` when the host is silent
(`20_memory.md` R60; log entry 2). -/
def takeMove (s : State) : Option (HostMove × State) :=
  match s.host with
  | [] => none
  | move :: rest => some (move, { s with host := rest })

/-- With no move pending the engine is passive and keeps all state (`00_scope.md` R16,
`60_exceptions.md` R199; log entry 2). -/
def waitForHost (s : State) : Host.Outcome State Fault Refusal := .next s

end Sys2Proof.Machine
end

