-- ==== Sys2Proof/Machine/Comparator.lean ====
section
/-! DEFINITION. The constant-time comparator: `cteq` and the meaning of `CTEQ`
(`42_comparator.md`). -/

namespace Sys2Proof.Machine

/-- The 8-bit accumulator after the loop of `cteq`: the OR of all byte differences; every
iteration is made (R160, D12). -/
def cteqAcc (a b : List Byte) : Byte :=
  (a.zip b).foldl (fun acc p => acc ||| (p.1 ^^^ p.2)) 0

/-- `cteq(a, b)` on two byte strings of the same length (R160). -/
def cteq (a b : List Byte) : Bool := cteqAcc a b == 0

/-- The verdict of `CTEQ` on a tag: a wrong length is "not equal" (R162). -/
def verdict (e : Engine) (tag : List Byte) : Byte :=
  if tag.length ≠ e.outlen.val then 0x00 else if cteq e.digest tag then 0x01 else 0x00

/-- `CTEQ tag` (R162): writes no register. -/
def execCteq (tag : List Byte) (s : State) : Host.Outcome State Fault Refusal :=
  if s.engine.phase ≠ .done then raise (.sequenceError s.engine.phase) s
  else respond .ok [verdict s.engine tag] s

end Sys2Proof.Machine
end

