-- ==== Sys2Proof/Machine/Compress.lean ====
section
/-! DEFINITION. The compression engine: `G`, `ROUND` and `COMPRESS` (`41_compression_engine.md`).
The scratch `m` and `v` is local to one compression (`10_state.md` R29, R30). -/

namespace Sys2Proof.Machine

/-- The arithmetic of `G` on four words of `v` and two message words: the eight steps of R134, in
order. Answers the new `a`, `b`, `c`, `d`. -/
def gMix (a b c d x y : Word) : Word × Word × Word × Word :=
  let a := a + b + x
  let d := rotr (d ^^^ a) 32
  let c := c + d
  let b := rotr (b ^^^ c) 24
  let a := a + b + y
  let d := rotr (d ^^^ a) 16
  let c := c + d
  let b := rotr (b ^^^ c) 63
  (a, b, c, d)

/-- `G` on the working vector: reads and writes the four words the group names (R134). -/
def gApply (q : GGroup) (x y : Word) (v : Vector Word 16) : Vector Word 16 :=
  match gMix v[q.a] v[q.b] v[q.c] v[q.d] x y with
  | (a, b, c, d) => (((v.set q.a a).set q.b b).set q.c c).set q.d d

/-- Call `j` of round `r`: group `j` with `m[s[2j]]` as `x` and `m[s[2j+1]]` as `y` (R133). -/
def gCall (m : Vector Word 16) (r : Nat) (j : Fin 8) (v : Vector Word 16) : Vector Word 16 :=
  gApply gGroups[j] m[(sigmaRow r)[2 * j.val]] m[(sigmaRow r)[2 * j.val + 1]] v

/-- The order of the `G` calls of a round: four columns, then four diagonals (R136). -/
def callOrder : List (Fin 8) := [0, 1, 2, 3, 4, 5, 6, 7]

/-- `ROUND(r)` (R136). -/
def roundStep (m : Vector Word 16) (r : Nat) (v : Vector Word 16) : Vector Word 16 :=
  callOrder.foldl (fun v j => gCall m r j v) v

/-- Message load: `m[j] = MemRead(8·j, 8)` (R137, `20_memory.md` R53). -/
def messageWords (buf : Vector Byte 128) : Vector Word 16 :=
  Vector.ofFn fun j => BitVec.ofNat 64 (memRead buf (8 * j.val) 8 (by omega))

/-- Working-vector set-up (R138). -/
def workingVector (h : Vector Word 8) (t f : WordPair) : Vector Word 16 :=
  #v[h[0], h[1], h[2], h[3], h[4], h[5], h[6], h[7],
     iv[0], iv[1], iv[2], iv[3],
     iv[4] ^^^ t.low, iv[5] ^^^ t.high, iv[6] ^^^ f.low, iv[7] ^^^ f.high]

/-- The twelve rounds (R139). -/
def allRounds (m v : Vector Word 16) : Vector Word 16 :=
  (List.range Config.rounds).foldl (fun v r => roundStep m r v) v

/-- The feed-forward: `h[i] xor v[i] xor v[i+8]`, with the `h` the compression started from
(R139). -/
def feedForward (h : Vector Word 8) (v : Vector Word 16) : Vector Word 8 :=
  Vector.ofFn fun i => h[i] ^^^ v[i.val] ^^^ v[i.val + 8]

/-- The function `COMPRESS` computes: the new `h` from `h`, `t`, `f` and the block (R139, R140). -/
def compressH (h : Vector Word 8) (t f : WordPair) (buf : Vector Byte 128) : Vector Word 8 :=
  feedForward h (allRounds (messageWords buf) (workingVector h t f))

/-- `COMPRESS()`: writes `h` and nothing else (R130, R139). -/
def compress (e : Engine) : Engine := { e with h := compressH e.h e.t e.f e.buf }

end Sys2Proof.Machine
end

