-- ==== Sys2Proof/Machine/Flags.lean ====
section
/-! DEFINITION. The finalization flags `f`, the block's only flags (`10_state.md` R23). -/

namespace Sys2Proof.Machine

/-- Both flag words zero: "not the final block" (R23, written by `INIT`, R104). -/
def clearFlags : WordPair := ⟨0, 0⟩

/-- `f[0] <- ONES`; `f[1]` is not written (`40_driver.md` R110, `90_conflicts.md` C1). -/
def setLastBlock (f : WordPair) : WordPair := { f with low := ones }

end Sys2Proof.Machine
end

