-- ==== Sys2Proof/Machine/Driver.lean ====
section
/-! DEFINITION. The incremental driver: the meanings of `INIT`, `UPDATE` and `FINAL`
(`40_driver.md`). Every test stands before the first write (R14, R100). -/

namespace Sys2Proof.Machine

/-! ### INIT -/

/-- The registers an accepted `INIT` leaves: a function of the digest size alone (R104, D18). -/
def openSession (size : Byte) (outlen : Fin 65) : Engine where
  h := initialH size
  t := ⟨0, 0⟩
  f := clearFlags
  buf := Vector.replicate 128 0
  buflen := 0
  outlen := outlen
  phase := .active

/-- `INIT k` (R104): accepted in every phase for `1 ≤ k ≤ 64`. -/
def execInit (arg : Byte) (s : State) : Host.Outcome State Fault Refusal :=
  if ok : SizeOk arg.toNat then
    respond .ok [] { s with engine := openSession arg ⟨arg.toNat, by omega⟩ }
  else raise (.parameterOutOfRange arg) s

/-! ### UPDATE -/

/-- Compress the full buffer as a block that is not the last: `t_add(128)`, `COMPRESS()`,
`buflen <- 0` (R105, R106). -/
def flushBlock (e : Engine) : Engine :=
  { compress { e with t := tAdd e.t 128 } with buflen := 0 }

/-- A buffer just compressed has room for the next byte. -/
theorem flushBlock_room (e : Engine) : (flushBlock e).buflen.val < 128 :=
  show (0 : Fin 129).val < 128 by decide

/-- Store one byte at the end of the pending bytes: `MemWrite(buflen, 1, b)`,
`buflen <- buflen + 1` (R106). -/
def appendByte (e : Engine) (room : e.buflen.val < 128) (b : Byte) : Engine :=
  { e with
    buf := memWrite e.buf e.buflen.val 1 b.toNat room
    buflen := ⟨e.buflen.val + 1, by omega⟩ }

/-- One turn of the loop of `UPDATE`: a full buffer is compressed only now that one more byte is at
hand (R106, R108). -/
def absorbByte (e : Engine) (b : Byte) : Engine :=
  if full : e.buflen.val = 128 then appendByte (flushBlock e) (flushBlock_room e) b
  else appendByte e (by omega) b

/-- The loop of `UPDATE` over the payload, in the byte-serial form of R106 (log entry 14). -/
def absorb (e : Engine) (data : List Byte) : Engine := data.foldl absorbByte e

/-- `UPDATE data` (R105, R106). -/
def execUpdate (data : List Byte) (s : State) : Host.Outcome State Fault Refusal :=
  if s.engine.phase ≠ .active then raise (.sequenceError s.engine.phase) s
  else respond .ok [] { s with engine := absorb s.engine data }

/-! ### FINAL -/

/-- Zero padding: `buf[i] <- 0x00` for `i` in `buflen..127` (R110). -/
def padBuffer (buf : Vector Byte 128) (buflen : Nat) : Vector Byte 128 :=
  Vector.ofFn fun i => if i.val < buflen then buf[i] else 0

/-- The registers an accepted `FINAL` leaves: padding, then `t`, then `f[0]`, then the one
compression, then `phase` (R110, R111, `20_memory.md` R61). -/
def finalize (e : Engine) : Engine :=
  let padded := { e with buf := padBuffer e.buf e.buflen.val }
  let counted := { padded with t := tAdd padded.t padded.buflen.val }
  let marked := { counted with f := setLastBlock counted.f }
  { compress marked with phase := .done }

/-- `FINAL` (R110). -/
def execFinal (s : State) : Host.Outcome State Fault Refusal :=
  if s.engine.phase ≠ .active then raise (.sequenceError s.engine.phase) s
  else respond .ok (finalize s.engine).digest { s with engine := finalize s.engine }

end Sys2Proof.Machine
end

