-- ==== Sys2Proof/Machine/Dispatch.lean ====
section
/-! DEFINITION. One arm per command (`40_driver.md` R101). -/

namespace Sys2Proof.Machine

/-- What a decoded command does. -/
def exec (i : Instr) (s : State) : Host.Outcome State Fault Refusal :=
  match i with
  | .init arg => Sys2Proof.Machine.execInit arg s
  | .update data => Sys2Proof.Machine.execUpdate data s
  | .final => Sys2Proof.Machine.execFinal s
  | .cteq tag => Sys2Proof.Machine.execCteq tag s

end Sys2Proof.Machine
end

