-- ==== Sys2Proof/Machine/Command.lean ====
section
/-! DEFINITION. One move of the host, taken whole (`00_scope.md` R6): a command is decoded and
executed or rejected as illegal (`30_encoding.md` R76, R78), or the instance is reset
(`70_reset_and_hazards.md` R210, R212). -/

namespace Sys2Proof.Machine

/-- One command, from decoding to its response: the encoding is tested first (`60_exceptions.md`
R186); an illegal command's payload is discarded unread (R183). -/
def runCommand (cmd : CmdWord) (payload : List Byte) (s : State) :
    Host.Outcome State Fault Refusal :=
  match decode cmd payload with
  | .instr i => exec i s
  | .illegal _ => raise (.illegalCommand cmd) s

/-- A reset that strikes during a command: the command ran, then reset, with the response dropped
(R212). -/
def cutByReset (before : State) : Host.Outcome State Fault Refusal → Host.Outcome State Fault Refusal
  | .next after => .next { resetEvent after with responses := before.responses }
  | .fault r => .fault r
  | .refused r => .refused r

/-- One move of the host. -/
def runMove (move : HostMove) (s : State) : Host.Outcome State Fault Refusal :=
  match move with
  | .command cmd payload => runCommand cmd payload s
  | .reset => .next (resetEvent s)
  | .commandCutByReset cmd payload => cutByReset s (runCommand cmd payload s)

end Sys2Proof.Machine
end

