-- ==== Sys2Proof/Machine/Step.lean ====
section
/-! DEFINITION. One step: the host's next move, taken whole (`20_memory.md` R60). -/

namespace Sys2Proof.Machine

/-- The engine has no step of its own: it takes the host's next move, or waits. -/
def step (s : State) : Host.Outcome State Fault Refusal :=
  match takeMove s with
  | none => waitForHost s
  | some (move, s') => runMove move s'

/-- `s` with the command word of these bits, and no payload, as the host's next move: the way a
program reaches the engine (log entry 12). -/
def State.withFetchWord (s : State) (nbits w : Nat) : State :=
  { s with host := .command (BitVec.ofNat 16 (w % 2 ^ nbits)) [] :: s.host }

end Sys2Proof.Machine
end

