-- ==== Sys2Proof/Machine/Structure.lean ====
section
/-! DEFINITION. The structural half of the constant-time requirements (`70_reset_and_hazards.md`
R228): `COMPRESS` as one fixed list of primitive operations (`41_compression_engine.md` R141), and
the reads of `cteq` (`42_comparator.md` R161). -/

namespace Sys2Proof.Machine

/-! ### COMPRESS as a list of primitive operations (R141) -/

/-- The primitive operations of one compression; every index is in the operation, none is data. -/
inductive MicroOp where
  /-- `m[j] <- MemRead(8·j, 8)` (R137). -/
  | loadWord (j : Fin 16)
  /-- The assignment to `v[i]` of the set-up (R138). -/
  | setUp (i : Fin 16)
  /-- One call of `G`, with the message words it takes (R133, R134). -/
  | callG (q : GGroup) (x y : Fin 16)
  /-- `h[i] <- h[i] xor v[i] xor v[i+8]` (R139). -/
  | feed (i : Fin 8)
  deriving DecidableEq, Repr

/-- The registers `COMPRESS` reads and the scratch it works on. -/
structure Datapath where
  h : Vector Word 8
  t : WordPair
  f : WordPair
  buf : Vector Byte 128
  m : Vector Word 16
  v : Vector Word 16
  deriving DecidableEq, Repr

/-- The word the set-up assigns to `v[i]` (R138). -/
def Datapath.setUpWord (p : Datapath) (i : Fin 16) : Word :=
  (workingVector p.h p.t p.f)[i]

/-- One primitive operation. -/
def MicroOp.run (p : Datapath) : MicroOp → Datapath
  | .loadWord j => { p with m := p.m.set j (BitVec.ofNat 64 (memRead p.buf (8 * j.val) 8 (by omega))) }
  | .setUp i => { p with v := p.v.set i (p.setUpWord i) }
  | .callG q x y => { p with v := gApply q p.m[x] p.m[y] p.v }
  | .feed i => { p with h := p.h.set i (p.h[i] ^^^ p.v[i.val] ^^^ p.v[i.val + 8]) }

/-- The 96 calls of `G`: twelve rounds of eight (R136, R139). -/
def callOps : List MicroOp :=
  (List.range Config.rounds).flatMap fun r =>
    callOrder.map fun j =>
      .callG gGroups[j] (sigmaRow r)[2 * j.val] (sigmaRow r)[2 * j.val + 1]

/-- The primitive operations of a compression, the same for every `h`, `t`, `f` and `buf`: 16 loads,
16 assignments to `v`, 96 calls of `G`, 8 feed-forward assignments (R141). -/
def compressOps : List MicroOp :=
  (List.finRange 16).map .loadWord ++ (List.finRange 16).map .setUp ++ callOps ++
    (List.finRange 8).map .feed

/-- The operations run in order. -/
def runOps (ops : List MicroOp) (p : Datapath) : Datapath := ops.foldl MicroOp.run p

/-! ### The reads of the comparator (R161) -/

/-- `cteq`'s loop from index `i`, with the record of the indices at which both strings were read. -/
def cteqLogged : (i : Nat) → (acc : Byte) → List (Byte × Byte) → Byte × List Nat
  | _, acc, [] => (acc, [])
  | i, acc, p :: ps =>
    let (result, reads) := cteqLogged (i + 1) (acc ||| (p.1 ^^^ p.2)) ps
    (result, i :: reads)

end Sys2Proof.Machine
end

