-- ==== Sys2Proof/Machine/Traced.lean ====
section
/-! DEFINITION. The commands once more, instrumented: each answers its outcome together with the
calls of `COMPRESS` it made and the reads of the comparator (`70_reset_and_hazards.md` R229). The
registers are written by the pseudocode's assignments, and `Traced.compress` alone calls `COMPRESS`;
the machine does not use this file. Statements say that the outcome is the machine's and speak of
the work in that trace. -/

namespace Sys2Proof.Machine

/-- One call of `COMPRESS`, by the counter and the flags it read. -/
structure CompressCall where
  t : WordPair
  f : WordPair
  deriving DecidableEq, Repr

/-- The work of a run: its calls of `COMPRESS`, and the indices at which the comparator read, both
oldest first. -/
structure Trace where
  compressions : List CompressCall
  reads : List Nat
  deriving DecidableEq, Repr

/-- No work. -/
def Trace.empty : Trace := ⟨[], []⟩

/-- One run's work and then another's. -/
def Trace.append (w x : Trace) : Trace := ⟨w.compressions ++ x.compressions, w.reads ++ x.reads⟩

/-- Registers in the middle of a command, with the calls of `COMPRESS` made so far. -/
structure Traced where
  engine : Engine
  calls : List CompressCall
  deriving DecidableEq, Repr

/-- Assignments to registers. -/
def Traced.write (p : Traced) (g : Engine → Engine) : Traced := { p with engine := g p.engine }

/-- A call of `COMPRESS`, recorded. -/
def Traced.compress (p : Traced) : Traced :=
  ⟨Machine.compress p.engine, p.calls ++ [⟨p.engine.t, p.engine.f⟩]⟩

/-! ### The commands -/

/-- The assignments of `INIT k` (`40_driver.md` R104). -/
def tracedOpen (size : Byte) (outlen : Fin 65) (p : Traced) : Traced :=
  p.write fun _ =>
    { h := initialH size
      t := ⟨0, 0⟩
      f := ⟨0, 0⟩
      buf := Vector.replicate 128 0
      buflen := 0
      outlen := outlen
      phase := .active }

/-- A full block that is not the last: `t_add(128)`, `COMPRESS()`, `buflen <- 0` (R106). -/
def tracedFlush (p : Traced) : Traced :=
  ((p.write fun e => { e with t := tAdd e.t 128 }).compress).write fun e => { e with buflen := 0 }

/-- A buffer just compressed has room for the next byte. -/
theorem tracedFlush_room (p : Traced) : (tracedFlush p).engine.buflen.val < 128 :=
  show (0 : Fin 129).val < 128 by decide

/-- `MemWrite(buflen, 1, b)`, `buflen <- buflen + 1` (R106). -/
def tracedStore (p : Traced) (room : p.engine.buflen.val < 128) (b : Byte) : Traced :=
  p.write fun _ =>
    { p.engine with
      buf := memWrite p.engine.buf p.engine.buflen.val 1 b.toNat room
      buflen := ⟨p.engine.buflen.val + 1, by omega⟩ }

/-- One turn of the loop of `UPDATE` (R106). -/
def tracedByte (p : Traced) (b : Byte) : Traced :=
  if full : p.engine.buflen.val = 128 then
    tracedStore (tracedFlush p) (tracedFlush_room p) b
  else tracedStore p (by omega) b

/-- `FINAL` up to its response: padding, `t`, `f[0]`, `COMPRESS()`, `phase` (R110). -/
def tracedFinalize (p : Traced) : Traced :=
  ((((p.write fun e => { e with buf := padBuffer e.buf e.buflen.val }).write
    fun e => { e with t := tAdd e.t e.buflen.val }).write
    fun e => { e with f := ⟨ones, e.f.high⟩ }).compress).write
    fun e => { e with phase := .done }

/-- The verdict of `CTEQ` with the indices read: none for a tag of the wrong length
(`42_comparator.md` R162). -/
def tracedVerdict (e : Engine) (tag : List Byte) : Byte × List Nat :=
  if tag.length ≠ e.outlen.val then (0x00, [])
  else
    let (acc, reads) := cteqLogged 0 0 (e.digest.zip tag)
    (if acc = 0 then 0x01 else 0x00, reads)

/-- A decoded command with its work. A rejected one ends before it has done any
(`60_exceptions.md` R187). -/
def tracedExec (i : Instr) (s : State) : Host.Outcome State Fault Refusal × Trace :=
  match i with
  | .init arg =>
    if ok : SizeOk arg.toNat then
      let p := tracedOpen arg ⟨arg.toNat, by omega⟩ ⟨s.engine, []⟩
      (respond .ok [] { s with engine := p.engine }, ⟨p.calls, []⟩)
    else (raise (.parameterOutOfRange arg) s, Trace.empty)
  | .update data =>
    if s.engine.phase ≠ .active then (raise (.sequenceError s.engine.phase) s, Trace.empty)
    else
      let p := data.foldl tracedByte ⟨s.engine, []⟩
      (respond .ok [] { s with engine := p.engine }, ⟨p.calls, []⟩)
  | .final =>
    if s.engine.phase ≠ .active then (raise (.sequenceError s.engine.phase) s, Trace.empty)
    else
      let p := tracedFinalize ⟨s.engine, []⟩
      (respond .ok p.engine.digest { s with engine := p.engine }, ⟨p.calls, []⟩)
  | .cteq tag =>
    if s.engine.phase ≠ .done then (raise (.sequenceError s.engine.phase) s, Trace.empty)
    else
      let (byte, reads) := tracedVerdict s.engine tag
      (respond .ok [byte] s, ⟨[], reads⟩)

/-- A command word and payload with its work (`30_encoding.md` R78). -/
def tracedCommand (cmd : CmdWord) (payload : List Byte) (s : State) :
    Host.Outcome State Fault Refusal × Trace :=
  match decode cmd payload with
  | .instr i => tracedExec i s
  | .illegal _ => (raise (.illegalCommand cmd) s, Trace.empty)

/-- A list of commands with the work of all of them, stopping at the first fault or refusal. -/
def runTraced : List Instr → State → Host.Outcome State Fault Refusal × Trace
  | [], s => (.next s, Trace.empty)
  | i :: rest, s =>
    match tracedExec i s with
    | (.next s', w) =>
      let (outcome, x) := runTraced rest s'
      (outcome, w.append x)
    | (stop, w) => (stop, w)

end Sys2Proof.Machine
end

