-- ==== Sys2Proof/Machine/Pseudo.lean ====
section
/-! DEFINITION. The pseudo-commands `HASH`, `VERIFY`, `VERIFYC` and `SELFTEST`: host procedures that
send commands and read responses (`43_pseudo_commands.md`). They have no encoding and no rule of
state change of their own (R170). `none` stands for an engine that does not answer, which no
state allows. -/

namespace Sys2Proof.Machine

/-- The host sends one command and waits for its response (R170, `70_reset_and_hazards.md` R220). -/
def transact (cmd : CmdWord) (payload : List Byte) (s : State) : Option (Response × State) :=
  match runCommand cmd payload s with
  | .next s' => s'.responses.head?.map fun r => (r, s')
  | .fault _ => none
  | .refused _ => none

/-- The host sends the message as `UPDATE` commands, cut where it likes (R171). -/
def sendMessage : List (List Byte) → State → Option State
  | [], s => some s
  | chunk :: rest, s =>
    match transact 0x2000 chunk s with
    | some (_, s') => sendMessage rest s'
    | none => none

/-- What `HASH` returns: a digest, or the out-of-range error with the offending value and the
bounds (R171). -/
inductive HashResult where
  | digest (bytes : List Byte)
  | outOfRange (value low high : Int)
  deriving DecidableEq, Repr

/-- The out-of-range error of `HASH` from the info bytes of `ERR_RANGE` (R171). -/
def rangeError (info : List Byte) : HashResult :=
  .outOfRange (info.getD 0 0).toNat (info.getD 1 0).toNat (info.getD 2 0).toNat

/-- `HASH k, data`, the data given as the chunks in which the host sends it (R171, R172). -/
def hashMessage (k : Int) (chunks : List (List Byte)) (s : State) : Option (HashResult × State) :=
  if k < 0 ∨ 255 < k then some (.outOfRange k 1 64, s)
  else
    match transact (0x1000 + BitVec.ofInt 16 k) [] s with
    | none => none
    | some (r, s1) =>
      if r.status = .errRange then some (rangeError r.payload, s1)
      else
        match sendMessage chunks s1 with
        | none => none
        | some s2 =>
          match transact 0x3000 [] s2 with
          | none => none
          | some (r, s3) => some (.digest r.payload, s3)

/-- `VERIFY data, tag`: the digest length is the tag's, and a tag of another length than 1..64 fails
without a command (R173). -/
def verify (chunks : List (List Byte)) (tag : List Byte) (s : State) : Option (Bool × State) :=
  if tag.length < 1 ∨ 64 < tag.length then some (false, s)
  else
    match transact (0x1000 + BitVec.ofNat 16 tag.length) [] s with
    | none => none
    | some (_, s1) =>
      match sendMessage chunks s1 with
      | none => none
      | some s2 =>
        match transact 0x3000 [] s2 with
        | none => none
        | some (_, s3) =>
          match transact 0x4000 tag s3 with
          | none => none
          | some (r, s4) => some (r.payload == [0x01], s4)

/-- What `VERIFYC` returns: a verdict, or the host's programming error when no session is open
(R174). That the error is a result of its own is the model's choice (DESIGN CHOICE, log entry 21). -/
inductive ContinuationResult where
  | verdict (equal : Bool)
  | programmingError
  deriving DecidableEq, Repr

/-- `VERIFYC tag`: verification of the open session, which it consumes (R174). When `FINAL` is
answered `ERR_SEQ` the procedure ends there and sends no `CTEQ`, in phase `DONE` too (DESIGN CHOICE,
log entry 21). -/
def verifyContinuation (tag : List Byte) (s : State) : Option (ContinuationResult × State) :=
  match transact 0x3000 [] s with
  | none => none
  | some (r, s1) =>
    if r.status = .errSeq then some (.programmingError, s1)
    else
      match transact 0x4000 tag s1 with
      | none => none
      | some (r, s2) => some (.verdict (r.payload == [0x01]), s2)

/-- What `SELFTEST` ends in (R176). `FatalInitializationFailure` is the host's, not an engine status
(`60_exceptions.md` R184). -/
inductive SelfTestResult where
  | passed
  | fatalInitializationFailure
  deriving DecidableEq, Repr

/-- The known answer of the first run, `Hash("abc", 64)`, the document's own vector (R176). -/
def knownAbc : List Byte :=
  hexBytes 64 0xba80a53f981c4d0d6a2797b69f12f6e94c212f14685ac4b74b12bb6fdbffa2d17d87c5392aab792dc252d5de4533cc9518d38aa8dbf1925ab92386edd4009923

/-- The known answer of the second run, the digest of the bytes 00 to 80 at size 64 (R176). -/
def knownSeq129 : List Byte :=
  hexBytes 64 0xf59711d44a031d5f97a9413c065d1e614c417ede998590325f49bad2fd444d3e4418be19aec4e11449ac1a57207898bc57d76a1bcf3566292c20c683a5c4648f

/-- `seq(a, n)`: the `n` bytes `a, a+1, …` modulo 256 (`30_encoding.md` R85). -/
def seqBytes (a n : Nat) : List Byte := (List.range n).map fun i => BitVec.ofNat 8 (a + i)

/-- One known-answer run of `SELFTEST`. -/
def knownAnswer (message expected : List Byte) (s : State) : Option (Bool × State) :=
  match hashMessage 64 [message] s with
  | none => none
  | some (r, s') => some (decide (r = .digest expected), s')

/-- `SELFTEST`, with or without the optional second run (R176). The process-wide flag of the host
software is not part of it (R176, `00_scope.md` R5). -/
def selfTest (second : Bool) (s : State) : Option (SelfTestResult × State) :=
  match knownAnswer [0x61, 0x62, 0x63] knownAbc s with
  | none => none
  | some (false, s1) => some (.fatalInitializationFailure, s1)
  | some (true, s1) =>
    if second then
      match knownAnswer (seqBytes 0 129) knownSeq129 s1 with
      | none => none
      | some (false, s2) => some (.fatalInitializationFailure, s2)
      | some (true, s2) => some (.passed, s2)
    else some (.passed, s1)

end Sys2Proof.Machine
end

