-- ==== Sys2Proof/Machine/Reference.lean ====
section
/-! DEFINITION. Two descriptions the spec gives beside the commands: the block form of `UPDATE`
(`40_driver.md` R105), and the function of the message that a whole session computes (R115). The
machine does not use them; statements compare it with them. -/

namespace Sys2Proof.Machine

/-! ### UPDATE, block form (R105) -/

/-- `buf[i] <- P[i]` for every `i` of `P`, in the first 128 places; the rest of `buf` stays. -/
def storeFront (buf : Vector Byte 128) (p : List Byte) : Vector Byte 128 :=
  Vector.ofFn fun i => p.getD i.val buf[i]

/-- The `while` loop of R105: as long as a full block and at least one more byte are at hand, advance
`t`, store the oldest block, compress. `fuel` bounds the turns; `len(P)` turns are enough. -/
def blockLoop : (fuel : Nat) → Engine → (p : List Byte) → Engine × List Byte
  | 0, e, p => (e, p)
  | fuel + 1, e, p =>
    if 129 ≤ p.length then
      blockLoop fuel (compress { e with t := tAdd e.t 128, buf := storeFront e.buf (p.take 128) })
        (p.drop 128)
    else (e, p)

/-- The registers after an accepted `UPDATE data`, in the block form of R105. -/
def absorbBlocks (e : Engine) (data : List Byte) : Engine :=
  let p := e.buf.toList.take e.buflen.val ++ data
  let (e', rest) := blockLoop p.length e p
  { e' with buf := storeFront e'.buf rest, buflen := Fin.ofNat 129 rest.length }

/-! ### A whole session (R115) -/

/-- `F(h, block, T, f0)`: the new `h` for counter `T` and flags `(f0, 0)` (R115, R140). -/
def coreF (h : Vector Word 8) (block : Vector Byte 128) (T : Nat) (f0 : Word) : Vector Word 8 :=
  compressH h ⟨BitVec.ofNat 64 T, BitVec.ofNat 64 (T / 2 ^ 64)⟩ ⟨f0, 0⟩ block

/-- Block `i` of a message, `d[128·i .. 128·i + 128)`, continued with zero bytes past its end
(R115). -/
def messageBlock (d : List Byte) (i : Nat) : Vector Byte 128 :=
  Vector.ofFn fun j => d.getD (128 * i + j.val) 0

/-- `nb = max(1, ceil(N / 128))` (R115). -/
def blockCount (n : Nat) : Nat := max 1 ((n + 127) / 128)

/-- The chaining value after the first `i` blocks, each with `f = (0, 0)` (R34, R115). -/
def chain (k : Nat) (d : List Byte) : (i : Nat) → Vector Word 8
  | 0 => iv.set 0 (iv[0] ^^^ (0x01010000 + BitVec.ofNat 64 k))
  | i + 1 => coreF (chain k d i) (messageBlock d i) (128 * (i + 1)) 0

/-- The chaining value after the last block of a message (R115). -/
def coreH (d : List Byte) (k : Nat) : Vector Word 8 :=
  coreF (chain k d (blockCount d.length - 1)) (messageBlock d (blockCount d.length - 1)) d.length ones

/-- `blake2b_core(d, k)`: the digest of the message `d` at size `k` (R115). -/
def blake2bCore (d : List Byte) (k : Nat) : List Byte := digestBytes (coreH d k) k

end Sys2Proof.Machine
end

