-- ==== Sys2Proof/Machine/Sequence.lean ====
section
/-! DEFINITION. Sequences of moves of one host on one instance (`20_memory.md` R60), and a system of
independent instances (`60_exceptions.md` R196). -/

namespace Sys2Proof.Machine

/-- `k` steps, stopping at the first fault or refusal. -/
def runSteps : (k : Nat) → State → Host.Outcome State Fault Refusal
  | 0, s => .next s
  | k + 1, s =>
    match step s with
    | .next s' => runSteps k s'
    | .fault r => .fault r
    | .refused r => .refused r

/-- The fold of the host's moves over the state, each to completion before the next (R60). -/
def runMoves : List HostMove → State → Host.Outcome State Fault Refusal
  | [], s => .next s
  | move :: rest, s =>
    match runMove move s with
    | .next s' => runMoves rest s'
    | .fault r => .fault r
    | .refused r => .refused r

/-- The host can make the move under `cfg`: a payload longer than `MAX_PAYLOAD` cannot be presented
(`00_scope.md` R9, `93_implementation_defined.md` U15; log entry 8). -/
def HostMove.carried (cfg : Config) : HostMove → Bool
  | .command _ payload => cfg.carries payload.length
  | .reset => true
  | .commandCutByReset _ payload => cfg.carries payload.length

/-- The host presents a decoded command: its word and its payload. -/
def present (i : Instr) : HostMove := .command (encode i).1 (encode i).2

/-- The commands that open a session and feed it: `INIT k`, then the message in the payloads of
`UPDATE`s (`40_driver.md` R112). -/
def feedCommands (size : Byte) (chunks : List (List Byte)) : List Instr :=
  .init size :: chunks.map .update

/-- The moves of a whole session: it is opened, fed, and closed by `FINAL` (`40_driver.md` R112). -/
def sessionMoves (size : Byte) (chunks : List (List Byte)) : List HostMove :=
  (feedCommands size chunks).map present ++ [present .final]

/-! ### Several instances (R196) -/

/-- A system of `N_ENGINES` instances: the product of their states, nothing shared (R196, D20). -/
abbrev System (n : Nat) := Vector State n

/-- The system under a configuration, right after every instance is reset. -/
def System.reset (cfg : Config) : System cfg.nEngines := Vector.replicate cfg.nEngines State.reset

/-- One step of instance `i`; the others do not move. -/
def System.stepAt {n : Nat} (y : System n) (i : Fin n) : Host.Outcome (System n) Fault Refusal :=
  match step y[i] with
  | .next s => .next (y.set i s)
  | .fault r => .fault r
  | .refused r => .refused r

/-- An interleaving: the instances step in the order of the schedule. -/
def System.run {n : Nat} : List (Fin n) → System n → Host.Outcome (System n) Fault Refusal
  | [], y => .next y
  | i :: rest, y =>
    match y.stepAt i with
    | .next y' => System.run rest y'
    | .fault r => .fault r
    | .refused r => .refused r

end Sys2Proof.Machine
end

