-- ==== Sys2Proof/Safety.lean ====
section
/-! DEFINITION. The terms in which claims are stated: the invariants of `10_state.md` R34 to R36,
what it is for the registers to hold a session of a message, and the life of a session without the
registers. -/

namespace Sys2Proof.Machine

/-! ### Invariants of the registers (R34 to R36) -/

/-- The part of R34 to R36 that mentions the registers alone. -/
def Engine.Inv (e : Engine) : Prop :=
  match e.phase with
  | .idle => e = Engine.reset
  | .active =>
    1 ≤ e.outlen.val ∧ e.f = ⟨0, 0⟩ ∧ e.t.value % 128 = 0 ∧
      (e.buflen.val = 0 → e = openSession (BitVec.ofNat 8 e.outlen.val) e.outlen)
  | .done =>
    1 ≤ e.outlen.val ∧ e.f = ⟨ones, 0⟩ ∧
      (∀ i : Fin 128, e.buflen.val ≤ i.val → e.buf[i] = 0) ∧
      e.t.value % 128 = e.buflen.val % 128

/-- The shapes of a response (`30_encoding.md` R84). -/
def Response.InTable (r : Response) : Prop :=
  match r.status with
  | .ok => r.payload = [] ∨ r.payload = [0x00] ∨ r.payload = [0x01] ∨
      (1 ≤ r.payload.length ∧ r.payload.length ≤ 64)
  | .errRange => ∃ arg : Byte, ¬ SizeOk arg.toNat ∧ r.payload = [arg, 0x01, 0x40]
  | .errSeq => ∃ phase : Phase, r.payload = [phase.code.setWidth 8]
  | .errIllegal => ∃ cmd : CmdWord, r.payload = [argField cmd, highByte cmd]

/-- The invariant of the machine: the registers' own, and every response recorded is one of the
table. -/
def State.Inv (s : State) : Prop :=
  s.engine.Inv ∧ ∀ r ∈ s.responses, r.InTable

/-! ### What the registers hold for a message (R34, R35) -/

/-- `buflen` while the message so far has `n` bytes: 0 for none, else `((n − 1) mod 128) + 1`
(R34). -/
def pendingCount (n : Nat) : Nat := if n = 0 then 0 else (n - 1) % 128 + 1

/-- The registers of an open session of digest size `k` that has taken the message `d`: all of
R34. -/
structure Engine.HoldsOpen (e : Engine) (k : Nat) (d : List Byte) : Prop where
  phase : e.phase = .active
  outlen : e.outlen.val = k
  size : 1 ≤ k
  buflen : e.buflen.val = pendingCount d.length
  flags : e.f = ⟨0, 0⟩
  counter : e.t.value = (d.length - pendingCount d.length) % 2 ^ 128
  chained : e.h = chain k d ((d.length - pendingCount d.length) / 128)
  pending : e.buf.toList.take e.buflen.val = d.drop (d.length - pendingCount d.length)

/-- The registers of a finished session of digest size `k` whose message was `d`: all of R35. -/
structure Engine.HoldsDone (e : Engine) (k : Nat) (d : List Byte) : Prop where
  phase : e.phase = .done
  outlen : e.outlen.val = k
  size : 1 ≤ k
  buflen : e.buflen.val = pendingCount d.length
  flags : e.f = ⟨ones, 0⟩
  counter : e.t.value = d.length % 2 ^ 128
  final : e.h = coreH d k
  padded : ∀ i : Fin 128, e.buflen.val ≤ i.val → e.buf[i] = 0

/-! ### The life of a session without the registers -/

/-- What the host has made of the engine: no session, an open session, a finished one. -/
inductive Session where
  | absent
  | opened (k : Nat) (message : List Byte)
  | finished (k : Nat) (message : List Byte)
  deriving DecidableEq, Repr

/-- The phase of a session (R27). -/
def Session.phase : Session → Phase
  | .absent => .idle
  | .opened _ _ => .active
  | .finished _ _ => .done

/-- The session after a command, and the response, from the message alone: the table of
`40_driver.md` R101 with the digest of R115 and the comparison of `42_comparator.md` R162. -/
def Session.command (σ : Session) (i : Instr) : Session × Response :=
  match i, σ with
  | .init arg, σ =>
    if 1 ≤ arg.toNat ∧ arg.toNat ≤ 64 then (.opened arg.toNat [], ⟨.ok, []⟩)
    else (σ, ⟨.errRange, [arg, 0x01, 0x40]⟩)
  | .update data, .opened k d => (.opened k (d ++ data), ⟨.ok, []⟩)
  | .update _, σ => (σ, ⟨.errSeq, [σ.phase.code.setWidth 8]⟩)
  | .final, .opened k d => (.finished k d, ⟨.ok, blake2bCore d k⟩)
  | .final, σ => (σ, ⟨.errSeq, [σ.phase.code.setWidth 8]⟩)
  | .cteq tag, .finished k d =>
    (.finished k d, ⟨.ok, [if tag = blake2bCore d k then 0x01 else 0x00]⟩)
  | .cteq _, σ => (σ, ⟨.errSeq, [σ.phase.code.setWidth 8]⟩)

/-- The registers hold the session. -/
def Engine.Holds (e : Engine) : Session → Prop
  | .absent => e = Engine.reset
  | .opened k d => e.HoldsOpen k d
  | .finished k d => e.HoldsDone k d

/-- The session after a move of the host, and the response it gets, if any (R60, R210, R212). -/
def Session.move (σ : Session) : HostMove → Session × Option Response
  | .command cmd payload =>
    match decode cmd payload with
    | .instr i => ((σ.command i).1, some (σ.command i).2)
    | .illegal _ => (σ, some ⟨.errIllegal, [argField cmd, highByte cmd]⟩)
  | .reset => (.absent, none)
  | .commandCutByReset _ _ => (.absent, none)

end Sys2Proof.Machine
end

