-- ==== Sys2Proof/Certificates/Slice0/Obligations.lean ====
section
/-! DEFINITION. The statements about the block, each with the rules of `spec/` it rests on. -/

open Sys2Proof Sys2Proof.Machine

/-! ### The step, the host's moves and reset -/

/-- A step is the host's next move, taken whole (`20_memory.md` R60, `30_encoding.md` R78): a
command whose word and payload decode to `i` runs `exec i`; an illegal one is answered
`ERR_ILLEGAL` with the two bytes of its word. In both cases the step itself only removes the move
from the host's list. -/
def Obligations.StepRunsTheDecodedCommand : Prop :=
  ∀ (s : State) (cmd : CmdWord) (payload : List Byte) (rest : List HostMove),
    s.host = .command cmd payload :: rest →
      (∀ i, decode cmd payload = .instr i → step s = exec i { s with host := rest }) ∧
      (∀ c, decode cmd payload = .illegal c →
        step s = .next
          { s with
            host := rest
            responses := ⟨.errIllegal, [cmd.setWidth 8, (cmd >>> 8).setWidth 8]⟩ :: s.responses })

/-- With no move of the host pending the machine waits and keeps all state (`00_scope.md` R16,
`60_exceptions.md` R199). That waiting is a step which changes nothing is the model's choice, log
entry 2. -/
def Obligations.WaitingChangesNothing : Prop :=
  ∀ s : State, s.host = [] → step s = .next s

/-- The reset event (`70_reset_and_hazards.md` R210): it gives no response, every register then holds
its value of `10_state.md` R37; no command leads into phase `IDLE` from another phase, and none but
an accepted `INIT` changes a register in phase `DONE`, so reset alone clears a held digest without a
new session. -/
def Obligations.ResetEventClearsEveryRegister : Prop :=
  (∀ (s : State) (rest : List HostMove), s.host = .reset :: rest →
    ∃ t, step s = .next t ∧ t.host = rest ∧ t.responses = s.responses ∧
      t.engine.phase = .idle ∧ t.engine.buflen.val = 0 ∧ t.engine.outlen.val = 0 ∧
      (∀ i : Fin 8, t.engine.h[i] = 0) ∧ t.engine.t = ⟨0, 0⟩ ∧ t.engine.f = ⟨0, 0⟩ ∧
      (∀ i : Fin 128, t.engine.buf[i] = 0)) ∧
  (∀ (s t : State) (cmd : CmdWord) (payload : List Byte),
    runMove (.command cmd payload) s = .next t →
      (t.engine.phase = .idle → s.engine.phase = .idle ∧ t.engine = s.engine) ∧
      (s.engine.phase = .done → t.engine = s.engine ∨
        ∃ arg : Byte, decode cmd payload = .instr (.init arg) ∧ 1 ≤ arg.toNat ∧ arg.toNat ≤ 64))

/-- A reset that strikes during a command (R212): the response is lost and the state is the reset
state, whatever the command was. -/
def Obligations.ResetDuringACommandLosesItsResponse : Prop :=
  ∀ (s : State) (cmd : CmdWord) (payload : List Byte) (rest : List HostMove),
    s.host = .commandCutByReset cmd payload :: rest →
      step s = .next { s with engine := Engine.reset, host := rest }

/-- After reset only `INIT` of a legal size is accepted (R213): every other command is rejected and
the registers stay at reset; `UPDATE`, `FINAL` and `CTEQ` are answered `ERR_SEQ 00`. -/
def Obligations.AfterResetOnlyInitIsAccepted : Prop :=
  ∀ (s : State) (i : Instr), s.engine = Engine.reset →
    ∃ t r, exec i s = .next t ∧ t.responses = r :: s.responses ∧ t.host = s.host ∧
      match i with
      | .init arg =>
        if 1 ≤ arg.toNat ∧ arg.toNat ≤ 64 then r = ⟨.ok, []⟩ ∧ t.engine.phase = .active
        else r = ⟨.errRange, [arg, 0x01, 0x40]⟩ ∧ t.engine = Engine.reset
      | .update _ => r = ⟨.errSeq, [0x00]⟩ ∧ t.engine = Engine.reset
      | .final => r = ⟨.errSeq, [0x00]⟩ ∧ t.engine = Engine.reset
      | .cteq _ => r = ⟨.errSeq, [0x00]⟩ ∧ t.engine = Engine.reset

/-- Stepping through a list of moves is the fold of the single moves, each to completion before the
next (R60). -/
def Obligations.StepsAreTheFoldOfTheMoves : Prop :=
  ∀ (moves rest : List HostMove) (s : State),
    runSteps moves.length { s with host := moves ++ rest } =
      runMoves moves { s with host := rest }

/-! ### Encoding -/

/-- Decoding and encoding agree in both directions on every word and payload (`30_encoding.md` R75,
R78): a transaction decodes to a command exactly when it is the encoding of that command. -/
def Obligations.DecodeAndEncodeAgree : Prop :=
  ∀ (cmd : CmdWord) (payload : List Byte) (i : Instr),
    decode cmd payload = .instr i ↔ encode i = (cmd, payload)

/-- The decoder follows the opcode map (R75, R76): the rows that a word and its payload select are
exactly the one row of the command decoded, and none when the command is illegal. -/
def Obligations.DecoderFollowsTheOpcodeMap : Prop :=
  ∀ (cmd : CmdWord) (payload : List Byte),
    ((opcodeTable.filter fun r => r.selects cmd payload).map fun r => r.mnemonic) =
      match decode cmd payload with
      | .instr i => [i.mnemonic]
      | .illegal _ => []

/-- Illegal encodings (R76, R183): a command is illegal iff one of the four cases of R76 holds, and
then, in every state, it is answered `ERR_ILLEGAL` with its two bytes, low byte first, and nothing
else changes. The fields are read here as digits of the word's number. -/
def Obligations.IllegalCommandsAreRejected : Prop :=
  ∀ (cmd : CmdWord) (payload : List Byte),
    ((∃ c, decode cmd payload = .illegal c) ↔
      (cmd.toNat / 4096 = 0 ∨ 5 ≤ cmd.toNat / 4096) ∨
      cmd.toNat / 256 % 16 ≠ 0 ∨
      (2 ≤ cmd.toNat / 4096 ∧ cmd.toNat / 4096 ≤ 4 ∧ cmd.toNat % 256 ≠ 0) ∨
      ((cmd.toNat / 4096 = 1 ∨ cmd.toNat / 4096 = 3) ∧ payload.length ≠ 0)) ∧
    ∀ (s : State) (c : IllegalCause), decode cmd payload = .illegal c →
      runCommand cmd payload s = .next
        { s with
          responses :=
            ⟨.errIllegal, [BitVec.ofNat 8 (cmd.toNat % 256), BitVec.ofNat 8 (cmd.toNat / 256)]⟩ ::
              s.responses }

/-- Words written out from R75 bit by bit decode to their commands (`95_test_vectors.md` V50), and one
illegal word of each kind of R76 decodes to none. The names of the kinds are the model's, log
entry 11. -/
def Obligations.WrittenWordsDecode : Prop :=
  decode 0b0001000001000000#16 [] = .instr (.init 64) ∧
  decode 0b0001000011111111#16 [] = .instr (.init 255) ∧
  decode 0b0010000000000000#16 [0x61, 0x62] = .instr (.update [0x61, 0x62]) ∧
  decode 0b0011000000000000#16 [] = .instr .final ∧
  decode 0b0100000000000000#16 [0x6b] = .instr (.cteq [0x6b]) ∧
  decode 0b0001000100000000#16 [] = .illegal .reservedBits ∧
  decode 0b0101000000000000#16 [] = .illegal .unassignedOp ∧
  decode 0b0010000000000001#16 [] = .illegal .argumentNotZero ∧
  decode 0b0011000000000000#16 [0x61] = .illegal .payloadNotEmpty

/-! ### INIT -/

/-- An accepted `INIT` (`40_driver.md` R104): for every size 1..64 and every state, each register
takes the value of the pseudocode of R104, and the response is `OK` with no bytes. The values of
`IV` are the spec's from general knowledge, log entry 13. -/
def Obligations.InitOpensASession : Prop :=
  ∀ (arg : Byte) (s : State), 1 ≤ arg.toNat → arg.toNat ≤ 64 →
    ∃ t, exec (.init arg) s = .next t ∧
      t.engine.h[0] = iv[0] ^^^ (0x0000000001010000 + arg.setWidth 64) ∧
      (∀ i : Fin 8, i ≠ 0 → t.engine.h[i] = iv[i]) ∧
      t.engine.t = ⟨0, 0⟩ ∧ t.engine.f = ⟨0, 0⟩ ∧
      (∀ i : Fin 128, t.engine.buf[i] = 0x00) ∧
      t.engine.buflen.val = 0 ∧ t.engine.outlen.val = arg.toNat ∧ t.engine.phase = .active ∧
      t.host = s.host ∧ t.responses = ⟨.ok, []⟩ :: s.responses

/-- `ERR_RANGE` (`60_exceptions.md` R181): `INIT` with a size of 0 or 65..255 is answered with the
offending value and the bounds, in every phase, and no register changes. -/
def Obligations.InitOutOfRangeIsRejected : Prop :=
  ∀ (arg : Byte) (s : State), arg.toNat = 0 ∨ 65 ≤ arg.toNat →
    exec (.init arg) s =
      .next { s with responses := ⟨.errRange, [arg, 0x01, 0x40]⟩ :: s.responses }

/-- What came before a session does not matter (`70_reset_and_hazards.md` R214): after an accepted
`INIT`, the registers and all later responses of two engines under the same moves are the same,
whatever the two held before. -/
def Obligations.InitForgetsTheSessionBefore : Prop :=
  ∀ (arg : Byte) (moves : List HostMove) (s₁ s₂ : State), 1 ≤ arg.toNat → arg.toNat ≤ 64 →
    ∃ t₁ t₂ new,
      runMoves (present (.init arg) :: moves) s₁ = .next t₁ ∧
      runMoves (present (.init arg) :: moves) s₂ = .next t₂ ∧
      t₁.engine = t₂.engine ∧
      t₁.responses = new ++ s₁.responses ∧ t₂.responses = new ++ s₂.responses

/-! ### UPDATE -/

/-- `UPDATE` does what the block form of R105 says, on all registers and all 128 bytes of the
buffer, from every state in phase `ACTIVE`; in another phase it is answered `ERR_SEQ` and changes
nothing. -/
def Obligations.UpdateIsTheBlockForm : Prop :=
  ∀ (data : List Byte) (s : State),
    (s.engine.phase = .active →
      exec (.update data) s = .next
        { s with
          engine := absorbBlocks s.engine data
          responses := ⟨.ok, []⟩ :: s.responses }) ∧
    (s.engine.phase ≠ .active →
      exec (.update data) s = .next
        { s with responses := ⟨.errSeq, [s.engine.phase.code.setWidth 8]⟩ :: s.responses })

/-- `UPDATE` that does not overfill the buffer (R107, first rows): no compression; the bytes are
appended, every other byte of the buffer and every other register keeps its value. -/
def Obligations.UpdateWithinTheBufferOnlyAppends : Prop :=
  ∀ (data : List Byte) (s : State), s.engine.phase = .active →
    s.engine.buflen.val + data.length ≤ 128 →
    ∃ t, exec (.update data) s = .next t ∧
      t.engine.h = s.engine.h ∧ t.engine.t = s.engine.t ∧ t.engine.f = s.engine.f ∧
      t.engine.outlen = s.engine.outlen ∧ t.engine.phase = .active ∧
      t.engine.buflen.val = s.engine.buflen.val + data.length ∧
      (∀ a : Fin 128,
        t.engine.buf[a] =
          if s.engine.buflen.val ≤ a.val ∧ a.val < s.engine.buflen.val + data.length then
            data.getD (a.val - s.engine.buflen.val) 0
          else s.engine.buf[a]) ∧
      t.host = s.host ∧ t.responses = ⟨.ok, []⟩ :: s.responses

/-- The general row of R107, from every state in phase `ACTIVE`: with `S = buflen + n ≥ 1` there are
`ceil(S/128) − 1` compressions, `buflen` becomes `((S − 1) mod 128) + 1` and the counter grows by
128 for each, modulo 2^128 (D17, log entry 18); with `S = 0` there is none. `f`, `outlen` and `phase`
stay. The compressions are those of the instrumented command, whose outcome is the machine's. -/
def Obligations.UpdateCountsCompressions : Prop :=
  ∀ (data : List Byte) (s : State), s.engine.phase = .active →
    ∃ t w, exec (.update data) s = .next t ∧ tracedExec (.update data) s = (.next t, w) ∧
      t.engine.f = s.engine.f ∧ t.engine.outlen = s.engine.outlen ∧ t.engine.phase = .active ∧
      t.host = s.host ∧ t.responses = ⟨.ok, []⟩ :: s.responses ∧
      t.engine.buflen.val =
        (if s.engine.buflen.val + data.length = 0 then 0
        else (s.engine.buflen.val + data.length - 1) % 128 + 1) ∧
      w.compressions.length = (s.engine.buflen.val + data.length + 127) / 128 - 1 ∧
      t.engine.t.value =
        (s.engine.t.value + 128 * ((s.engine.buflen.val + data.length + 127) / 128 - 1)) % 2 ^ 128

/-! ### FINAL -/

/-- An accepted `FINAL` (R110, R111): the buffer is padded with zeros from `buflen` on, the counter
advances by `buflen`, `f[0]` is set and `f[1]` is not written, one compression follows, and the
response is the digest. `buflen`, `outlen` and the pending bytes keep their values. The counter wraps
at 2^128 (D17, log entry 18). -/
def Obligations.FinalClosesTheSession : Prop :=
  ∀ s : State, s.engine.phase = .active →
    ∃ t, exec .final s = .next t ∧
      (∀ a : Fin 128,
        t.engine.buf[a] = if a.val < s.engine.buflen.val then s.engine.buf[a] else 0x00) ∧
      t.engine.t.value = (s.engine.t.value + s.engine.buflen.val) % 2 ^ 128 ∧
      t.engine.f = ⟨ones, s.engine.f.high⟩ ∧
      t.engine.h = compressH s.engine.h t.engine.t t.engine.f t.engine.buf ∧
      t.engine.buflen = s.engine.buflen ∧ t.engine.outlen = s.engine.outlen ∧
      t.engine.phase = .done ∧ t.host = s.host ∧
      t.responses = ⟨.ok, digestBytes t.engine.h s.engine.outlen.val⟩ :: s.responses

/-- The length contract (R113): the response of an accepted `FINAL` has exactly `outlen` bytes;
`HASH` at a valid size `k` returns `k` bytes, and at any other integer the out-of-range error, with
no register changed; `INIT` at another size is rejected. -/
def Obligations.DigestHasTheSessionsLength : Prop :=
  (∀ s : State, s.engine.phase = .active →
    ∃ t bytes, exec .final s = .next t ∧ t.responses = ⟨.ok, bytes⟩ :: s.responses ∧
      bytes.length = s.engine.outlen.val) ∧
  (∀ (k : Int) (chunks : List (List Byte)) (s : State), 1 ≤ k → k ≤ 64 →
    ∃ bytes t, hashMessage k chunks s = some (.digest bytes, t) ∧ (bytes.length : Int) = k) ∧
  (∀ (k : Int) (chunks : List (List Byte)) (s : State), k < 1 ∨ 64 < k →
    ∃ t, hashMessage k chunks s = some (.outOfRange k 1 64, t) ∧ t.engine = s.engine) ∧
  (∀ (arg : Byte) (s : State), arg.toNat < 1 ∨ 64 < arg.toNat →
    ∃ t info, exec (.init arg) s = .next t ∧ t.responses = ⟨.errRange, info⟩ :: s.responses ∧
      t.engine = s.engine)

/-- Digest serialisation (R109, `20_memory.md` R54): for a size up to 64 the digest has that many
bytes, and byte `i` is bits `8·(i mod 8)+7 : 8·(i mod 8)` of `h[i div 8]`. -/
def Obligations.DigestBytesAreLittleEndian : Prop :=
  ∀ (h : Vector Word 8) (k : Nat), k ≤ 64 →
    (digestBytes h k).length = k ∧
    ∀ (i : Nat) (hi : i < k) (hh : i / 8 < 8),
      (digestBytes h k)[i]? = some ((h[i / 8] >>> (8 * (i % 8))).setWidth 8)

/-! ### CTEQ and the comparator -/

/-- `CTEQ` in phase `DONE` (`42_comparator.md` R162): the answer is `OK 01` iff the tag is the digest
held, byte for byte and in length, else `OK 00`; no register changes. -/
def Obligations.CteqComparesWithTheHeldDigest : Prop :=
  ∀ (tag : List Byte) (s : State), s.engine.phase = .done →
    exec (.cteq tag) s = .next
      { s with
        responses :=
          ⟨.ok, [if tag = digestBytes s.engine.h s.engine.outlen.val then 0x01 else 0x00]⟩ ::
            s.responses }

/-- A tag of the wrong length gets the response of a wrong tag of the right length, and neither is a
rejection (`60_exceptions.md` R185). -/
def Obligations.MalformedTagsLookLikeWrongTags : Prop :=
  ∀ (tag wrong : List Byte) (s : State), s.engine.phase = .done →
    tag.length ≠ s.engine.outlen.val → wrong.length = s.engine.outlen.val →
    wrong ≠ s.engine.digest →
    exec (.cteq tag) s = exec (.cteq wrong) s ∧
      ∃ t, exec (.cteq tag) s = .next t ∧ t.engine = s.engine ∧
        t.responses = ⟨.ok, [0x00]⟩ :: s.responses

/-- The comparator (R160): for byte strings of one length the result is 1 iff they agree at every
index. -/
def Obligations.ComparatorDecidesEquality : Prop :=
  ∀ a b : List Byte, a.length = b.length →
    (cteq a b = true ↔ ∀ i : Nat, i < a.length → a.getD i 0 = b.getD i 0)

/-- Properties of the comparator (R161): reflexive, symmetric; the loop reads the indices 0, 1, …,
`n − 1` in this order, whatever the bytes are, and its result is the accumulator's. `CTEQ` reads them
so for every tag of length `outlen`, and reads none for a tag of another length. -/
def Obligations.ComparatorReadsDependOnLengthOnly : Prop :=
  (∀ a : List Byte, cteq a a = true) ∧
  (∀ a b : List Byte, a.length = b.length → cteq a b = cteq b a) ∧
  (∀ a b : List Byte, a.length = b.length →
    cteqLogged 0 0 (a.zip b) = (cteqAcc a b, List.range a.length)) ∧
  (∀ (tag : List Byte) (s : State), s.engine.phase = .done →
    tracedExec (.cteq tag) s =
      (exec (.cteq tag) s,
        ⟨[], if tag.length = s.engine.outlen.val then List.range tag.length else []⟩))

/-! ### Rejections and the state machine -/

/-- The state machine in full (R101, `10_state.md` R28): the status and the phase after, for each
phase before and each decoded command. -/
def Obligations.DriverStateMachine : Prop :=
  ∀ (i : Instr) (s : State), ∃ t r, exec i s = .next t ∧ t.responses = r :: s.responses ∧
    (r.status, t.engine.phase) =
      match i, s.engine.phase with
      | .init arg, p =>
        if 1 ≤ arg.toNat ∧ arg.toNat ≤ 64 then (.ok, .active) else (.errRange, p)
      | .update _, .active => (.ok, .active)
      | .update _, p => (.errSeq, p)
      | .final, .active => (.ok, .done)
      | .final, p => (.errSeq, p)
      | .cteq _, .done => (.ok, .done)
      | .cteq _, p => (.errSeq, p)

/-- `ERR_SEQ` (`60_exceptions.md` R182): `UPDATE` and `FINAL` outside `ACTIVE` and `CTEQ` outside
`DONE` are answered with the current phase as one byte; no register changes. -/
def Obligations.CommandsOutOfSequenceAreRejected : Prop :=
  ∀ (i : Instr) (s : State),
    (match i with
      | .init _ => False
      | .update _ => s.engine.phase ≠ .active
      | .final => s.engine.phase ≠ .active
      | .cteq _ => s.engine.phase ≠ .done) →
    exec i s = .next
      { s with
        responses :=
          ⟨.errSeq,
            [match s.engine.phase with
              | .idle => 0x00
              | .active => 0x01
              | .done => 0x02]⟩ :: s.responses }

/-- A rejected command (R187): every command gets exactly one response and leaves the host's list
alone, and when the status is not `OK` every register keeps its value. -/
def Obligations.RejectedCommandsChangeNothing : Prop :=
  ∀ (cmd : CmdWord) (payload : List Byte) (s : State),
    ∃ t r, runCommand cmd payload s = .next t ∧ t.responses = r :: s.responses ∧
      t.host = s.host ∧ (r.status ≠ .ok → t.engine = s.engine)

/-- The order of the tests (R186): an illegal command is reported as illegal in every phase and
whatever its argument, and of the legal ones only `INIT` is tested for range and only the others
for phase. -/
def Obligations.EncodingIsTestedFirst : Prop :=
  ∀ (cmd : CmdWord) (payload : List Byte) (s : State),
    ∃ t r, runCommand cmd payload s = .next t ∧ t.responses = r :: s.responses ∧
      (r.status = .errIllegal ↔ ∃ c, decode cmd payload = .illegal c) ∧
      (r.status = .errRange ↔ ∃ arg, decode cmd payload = .instr (.init arg) ∧
        ¬ (1 ≤ arg.toNat ∧ arg.toNat ≤ 64)) ∧
      (r.status = .errSeq ↔ ∃ i, decode cmd payload = .instr i ∧
        ((∃ d, i = .update d) ∧ s.engine.phase ≠ .active ∨
          i = .final ∧ s.engine.phase ≠ .active ∨
          (∃ d, i = .cteq d) ∧ s.engine.phase ≠ .done))

/-- Exhaustiveness (R191): from every state a step answers a next state; no combination of phase,
word and payload faults or is refused. -/
def Obligations.EveryStepCompletes : Prop :=
  ∀ s : State, ∃ t, step s = .next t

/-- The digest size is fixed for the life of the session (`70_reset_and_hazards.md` R224,
`10_state.md` R26): a command other than an accepted `INIT` keeps `outlen`. -/
def Obligations.OutlenIsFixedForTheSession : Prop :=
  ∀ (cmd : CmdWord) (payload : List Byte) (s t : State),
    runCommand cmd payload s = .next t →
      t.engine.outlen = s.engine.outlen ∨
      ∃ arg : Byte, decode cmd payload = .instr (.init arg) ∧ 1 ≤ arg.toNat ∧ arg.toNat ≤ 64 ∧
        t.engine.outlen.val = arg.toNat

/-- Determinism and data isolation (`40_driver.md` R114): the registers and the response after a move
are a function of the registers before it and the move, not of the host's record or plans. -/
def Obligations.OutcomeDependsOnRegistersAndCommandOnly : Prop :=
  ∀ (move : HostMove) (s₁ s₂ : State), s₁.engine = s₂.engine →
    ∃ t₁ t₂ new, runMove move s₁ = .next t₁ ∧ runMove move s₂ = .next t₂ ∧
      t₁.engine = t₂.engine ∧
      t₁.responses = new ++ s₁.responses ∧ t₂.responses = new ++ s₂.responses ∧
      new.length ≤ 1

/-! ### The compression engine -/

/-- Right rotation (`00_scope.md` R11): bit `i` of `rotr(a, n)` is bit `(i + n) mod 64` of `a`. -/
def Obligations.RotationLosesNoBit : Prop :=
  ∀ (a : Word) (n i : Nat), 0 < n → n < 64 → i < 64 →
    (rotr a n).getLsbD i = a.getLsbD ((i + n) % 64)

/-- The mixing function is a bijection on its four words for fixed message words, and maps zeros to
zeros (`41_compression_engine.md` R135). -/
def Obligations.MixingIsABijection : Prop :=
  (∀ x y : Word, Function.Bijective fun q : Word × Word × Word × Word =>
    gMix q.1 q.2.1 q.2.2.1 q.2.2.2 x y) ∧
  gMix 0 0 0 0 0 0 = (0, 0, 0, 0)

/-- Message words are little-endian (`20_memory.md` R53): bit `i` of `m[j]` is bit `i mod 8` of
`buf[8j + i div 8]`. The spec supplies this byte order from general knowledge, K3. -/
def Obligations.MessageWordsAreLittleEndian : Prop :=
  ∀ (buf : Vector Byte 128) (j : Fin 16) (i : Fin 64),
    (messageWords buf)[j].getLsbD i.val =
      (buf[8 * j.val + i.val / 8]'(by omega)).getLsbD (i.val % 8)

/-- The tables (R132, R133, R136): every row of `SIGMA` is a permutation of 0..15, the index groups
of the four column calls are disjoint and cover `v`, and so do those of the four diagonal calls.
Their values are the spec's from general knowledge, K2 and K5. -/
def Obligations.TablesArePermutations : Prop :=
  (∀ r : Fin 12, (sigmaRow r.val).toList.Nodup) ∧
  (((gGroups.toList.take 4).flatMap fun q => [q.a, q.b, q.c, q.d]).Nodup) ∧
  (((gGroups.toList.drop 4).flatMap fun q => [q.a, q.b, q.c, q.d]).Nodup)

/-- The four column calls of a round commute with one another, and so do the four diagonal calls
(R136, `20_memory.md` R61). -/
def Obligations.CallsOfOneStepCommute : Prop :=
  ∀ (m : Vector Word 16) (r : Nat) (v : Vector Word 16) (i j : Fin 8),
    i ≠ j → i.val / 4 = j.val / 4 →
      gCall m r i (gCall m r j v) = gCall m r j (gCall m r i v)

/-- Data independence (R141): `COMPRESS` is one fixed list of 16 word loads, 16 assignments to `v`,
96 calls of `G` and 8 feed-forward assignments; run on any registers and any left-over scratch it
gives the `h` of `COMPRESS`. -/
def Obligations.CompressIsAFixedOperationList : Prop :=
  (∀ p : Datapath, (runOps compressOps p).h = compressH p.h p.t p.f p.buf) ∧
  (compressOps.filter fun o => match o with | .loadWord _ => true | _ => false).length = 16 ∧
  (compressOps.filter fun o => match o with | .setUp _ => true | _ => false).length = 16 ∧
  (compressOps.filter fun o => match o with | .callG _ _ _ => true | _ => false).length = 96 ∧
  (compressOps.filter fun o => match o with | .feed _ => true | _ => false).length = 8

/-- The counter (`40_driver.md` R103): `t_add(c)` for `0 ≤ c ≤ 128` adds `c` to the 128-bit counter,
modulo 2^128, and `t_add(0)` changes nothing. The wrap is the spec's decision D17, log entry 18. -/
def Obligations.CounterAddsWithCarry : Prop :=
  ∀ (t : WordPair) (c : Nat), c ≤ 128 →
    (tAdd t c).value = (t.value + c) % 2 ^ 128 ∧ tAdd t 0 = t

/-! ### Sessions -/

/-- Every register is at its reset value after reset, and the invariant of R34 to R36 holds
there. -/
def Obligations.ResetMeetsTheInvariant : Prop :=
  State.reset.Inv ∧ State.reset.engine.Holds .absent

/-- Every step keeps the invariant of the registers of R34 to R36 and the response table of
`30_encoding.md` R84. -/
def Obligations.StepKeepsTheInvariant : Prop :=
  ∀ s t : State, s.Inv → step s = .next t → t.Inv

/-- The registers hold the session (`10_state.md` R34, R35, R36; `40_driver.md` R115): as long as
they do, every move of the host is answered as the session without registers says, and they hold
the session it leads to. There is no premise on the message's length (`70_reset_and_hazards.md`
R226): from 2^128 bytes on the statement rests on the wrap of the counter, the spec's decision D17,
log entry 18. -/
def Obligations.RegistersRefineTheSession : Prop :=
  ∀ (σ : Session) (move : HostMove) (s : State), s.engine.Holds σ →
    ∃ t, runMove move s = .next t ∧ t.host = s.host ∧
      t.engine.Holds (σ.move move).1 ∧
      t.responses = (σ.move move).2.toList ++ s.responses

/-- A whole session computes `blake2b_core` (R115): from any state, `INIT k`, the message in any
`UPDATE`s, and `FINAL` answer `OK` throughout and end with the digest of R115. -/
def Obligations.SessionComputesBlake2bCore : Prop :=
  ∀ (size : Byte) (chunks : List (List Byte)) (s : State),
    1 ≤ size.toNat → size.toNat ≤ 64 → chunks.flatten.length < 2 ^ 128 →
    ∃ t, runMoves (sessionMoves size chunks) s = .next t ∧
      t.engine.HoldsDone size.toNat chunks.flatten ∧
      t.responses =
        ⟨.ok, blake2bCore chunks.flatten size.toNat⟩ ::
          List.replicate (chunks.length + 1) ⟨.ok, []⟩ ++ s.responses

/-- Chunking invariance (R112): two sessions of one digest size whose `UPDATE`s carry the same
message, however it is cut, end in the same registers and the same digest. -/
def Obligations.ChunkingDoesNotMatter : Prop :=
  ∀ (size : Byte) (chunks₁ chunks₂ : List (List Byte)) (s : State),
    1 ≤ size.toNat → size.toNat ≤ 64 → chunks₁.flatten = chunks₂.flatten →
    ∃ t₁ t₂ digest, runMoves (sessionMoves size chunks₁) s = .next t₁ ∧
      runMoves (sessionMoves size chunks₂) s = .next t₂ ∧
      t₁.engine = t₂.engine ∧
      t₁.responses.head? = some ⟨.ok, digest⟩ ∧ t₂.responses.head? = some ⟨.ok, digest⟩

/-- Two `UPDATE`s do what one `UPDATE` of the concatenation does, from every state in phase `ACTIVE`
(R112). -/
def Obligations.UpdatesConcatenate : Prop :=
  ∀ (a b : List Byte) (s : State), s.engine.phase = .active →
    ∃ t u w, exec (.update a) s = .next t ∧ exec (.update b) t = .next u ∧
      exec (.update (a ++ b)) s = .next w ∧ u.engine = w.engine

/-- Work and the deferral of the last block (R108): in a session of `N < 2^128` bytes
(`70_reset_and_hazards.md` R226), however it is cut, the `UPDATE`s call `COMPRESS`
`max(0, ceil(N/128) − 1)` times, with `f = (0, 0)` and `T = 128, 256, 384, …`; the buffer is empty after
them only if `N = 0`; and `FINAL` calls it once more, with `f[0] = ONES` and `T = N`, which gives the
new `h` from the `h` they left. The calls are those of the instrumented commands, whose outcomes are
the machine's. -/
def Obligations.LastBlockIsDeferred : Prop :=
  ∀ (size : Byte) (chunks : List (List Byte)) (s : State),
    1 ≤ size.toNat → size.toNat ≤ 64 → chunks.flatten.length < 2 ^ 128 →
    ∃ t u w, runMoves ((feedCommands size chunks).map present) s = .next t ∧
      runTraced (feedCommands size chunks) s = (.next t, w) ∧
      w.compressions.map (fun c => c.t.value) =
        (List.range ((chunks.flatten.length + 127) / 128 - 1)).map (fun i => 128 * (i + 1)) ∧
      (∀ c ∈ w.compressions, c.f = ⟨0, 0⟩) ∧
      (t.engine.buflen.val = 0 ↔ chunks.flatten.length = 0) ∧
      exec .final t = .next u ∧
      tracedExec .final t = (.next u, ⟨[⟨u.engine.t, ⟨ones, 0⟩⟩], []⟩) ∧
      u.engine.t.value = chunks.flatten.length ∧
      u.engine.h = compressH t.engine.h u.engine.t ⟨ones, 0⟩ u.engine.buf

/-- The work of a command (R229), counted in an instrumented command that gives the machine's outcome:
every command completes; an accepted `INIT` calls `COMPRESS` not at all, an accepted `UPDATE` with
`S = buflen + n` calls it `max(0, ceil(S/128) − 1)` times, an accepted `FINAL` once, an accepted
`CTEQ` not at all, with at most 64 comparator steps; a rejected command, an illegal one among them,
does nothing. -/
def Obligations.WorkOfEachCommand : Prop :=
  ∀ (cmd : CmdWord) (payload : List Byte) (s : State),
    ∃ t r w, runCommand cmd payload s = .next t ∧ tracedCommand cmd payload s = (.next t, w) ∧
      t.responses = r :: s.responses ∧
      (r.status ≠ .ok → w = ⟨[], []⟩) ∧
      (r.status = .ok →
        match decode cmd payload with
        | .instr (.init _) => w.compressions.length = 0
        | .instr (.update data) =>
          w.compressions.length = (s.engine.buflen.val + data.length + 127) / 128 - 1
        | .instr .final => w.compressions.length = 1
        | .instr (.cteq _) => w.compressions.length = 0 ∧ w.reads.length ≤ 64
        | .illegal _ => False)

/-! ### Pseudo-commands -/

/-- `HASH` (`43_pseudo_commands.md` R171): at a valid size it returns `blake2b_core` of the data,
however the host cuts it, from every state. -/
def Obligations.HashReturnsBlake2bCore : Prop :=
  ∀ (k : Int) (chunks : List (List Byte)) (s : State), 1 ≤ k → k ≤ 64 →
    chunks.flatten.length < 2 ^ 128 →
    ∃ t, hashMessage k chunks s = some (.digest (blake2bCore chunks.flatten k.toNat), t)

/-- `VERIFY` (R173, R175): true iff the tag is the hash of the data at the tag's length, false for
every tag of a length outside 1..64, and never an error; an illegal length issues no command. -/
def Obligations.VerifyDecidesTheTag : Prop :=
  ∀ (chunks : List (List Byte)) (tag : List Byte) (s : State),
    chunks.flatten.length < 2 ^ 128 →
    ∃ b t, verify chunks tag s = some (b, t) ∧
      (b = true ↔ 1 ≤ tag.length ∧ tag.length ≤ 64 ∧
        tag = blake2bCore chunks.flatten tag.length) ∧
      (tag.length < 1 ∨ 64 < tag.length → t = s)

/-- `VERIFYC` (R174): in phase `ACTIVE` it answers whether the tag is the digest of the open session
and consumes the session; in another phase the host sees its programming error and no register
changes. That the error is a result of its own, and that no `CTEQ` follows it, is the model's choice,
log entry 21. For a session of 2^128 bytes or more, which `70_reset_and_hazards.md` R226 keeps out,
the first part rests on the wrap of the counter, D17, log entry 18. -/
def Obligations.VerifyContinuationConsumesTheSession : Prop :=
  ∀ (k : Nat) (d tag : List Byte) (s : State),
    (s.engine.HoldsOpen k d →
      ∃ b t, verifyContinuation tag s = some (.verdict b, t) ∧ t.engine.HoldsDone k d ∧
        (b = true ↔ tag = blake2bCore d k)) ∧
    (s.engine.phase ≠ .active →
      ∃ t, verifyContinuation tag s = some (.programmingError, t) ∧ t.engine = s.engine)

/-- `SELFTEST` passes, both runs, right after reset (R176). The first known answer is the source's own;
the tables behind both are log entry 13. -/
def Obligations.SelfTestPassesAfterReset : Prop :=
  (selfTest true State.reset).map (fun r => r.1) = some .passed

/-- `MAX_PAYLOAD` does not limit what can be hashed (`00_scope.md` R9): under every bound of at least
one byte the host can cut any message into payloads it can present, and `HASH` of the cut is
`blake2b_core` of the message. -/
def Obligations.PayloadBoundLimitsNoMessage : Prop :=
  ∀ (cfg : Config) (k : Int) (d : List Byte) (s : State), cfg.maxPayload ≠ some 0 → 1 ≤ k →
    k ≤ 64 → d.length < 2 ^ 128 →
    ∃ (chunks : List (List Byte)) (t : State), chunks.flatten = d ∧
      (∀ c ∈ chunks, (present (.update c)).carried cfg = true) ∧
      hashMessage k chunks s = some (.digest (blake2bCore d k.toNat), t)

/-! ### Several instances -/

/-- Instances are independent (`60_exceptions.md` R196): any interleaving completes, and gives each
instance the state it reaches alone after as many steps as the schedule gives it. -/
def Obligations.InstancesRunAsIfAlone : Prop :=
  ∀ (cfg : Config) (schedule : List (Fin cfg.nEngines)) (y : System cfg.nEngines),
    ∃ z : System cfg.nEngines, System.run schedule y = .next z ∧
      ∀ i : Fin cfg.nEngines, runSteps (schedule.count i) y[i] = .next z[i]
end

