-- ==== Sys2Proof/Laws/State.lean ====
section
/-! SUPPORT. One lemma per field for each update of the registers, true by `rfl`, so that no later
proof unfolds a record update. -/

namespace Sys2Proof.Machine

/-! ### The reset event -/

@[simp] theorem resetEvent_engine (s : State) : (resetEvent s).engine = Engine.reset := rfl
@[simp] theorem resetEvent_host (s : State) : (resetEvent s).host = s.host := rfl
@[simp] theorem resetEvent_responses (s : State) : (resetEvent s).responses = s.responses := rfl

@[simp] theorem Engine.reset_phase : Engine.reset.phase = .idle := rfl
@[simp] theorem Engine.reset_buflen : Engine.reset.buflen = 0 := rfl
@[simp] theorem Engine.reset_outlen : Engine.reset.outlen = 0 := rfl

/-! ### A fresh session -/

section
variable (size : Byte) (outlen : Fin 65)

@[simp] theorem openSession_h : (openSession size outlen).h = initialH size := rfl
@[simp] theorem openSession_t : (openSession size outlen).t = ⟨0, 0⟩ := rfl
@[simp] theorem openSession_f : (openSession size outlen).f = ⟨0, 0⟩ := rfl
@[simp] theorem openSession_buf : (openSession size outlen).buf = Vector.replicate 128 0 := rfl
@[simp] theorem openSession_buflen : (openSession size outlen).buflen = 0 := rfl
@[simp] theorem openSession_outlen : (openSession size outlen).outlen = outlen := rfl
@[simp] theorem openSession_phase : (openSession size outlen).phase = .active := rfl

end

/-! ### A compression -/

section
variable (e : Engine)

@[simp] theorem compress_h : (compress e).h = compressH e.h e.t e.f e.buf := rfl
@[simp] theorem compress_t : (compress e).t = e.t := rfl
@[simp] theorem compress_f : (compress e).f = e.f := rfl
@[simp] theorem compress_buf : (compress e).buf = e.buf := rfl
@[simp] theorem compress_buflen : (compress e).buflen = e.buflen := rfl
@[simp] theorem compress_outlen : (compress e).outlen = e.outlen := rfl
@[simp] theorem compress_phase : (compress e).phase = e.phase := rfl

/-! ### A full block that is not the last -/

@[simp] theorem flushBlock_h : (flushBlock e).h = compressH e.h (tAdd e.t 128) e.f e.buf := rfl
@[simp] theorem flushBlock_t : (flushBlock e).t = tAdd e.t 128 := rfl
@[simp] theorem flushBlock_f : (flushBlock e).f = e.f := rfl
@[simp] theorem flushBlock_buf : (flushBlock e).buf = e.buf := rfl
@[simp] theorem flushBlock_buflen : (flushBlock e).buflen = 0 := rfl
@[simp] theorem flushBlock_outlen : (flushBlock e).outlen = e.outlen := rfl
@[simp] theorem flushBlock_phase : (flushBlock e).phase = e.phase := rfl

/-! ### One byte stored -/

variable (room : e.buflen.val < 128) (b : Byte)

@[simp] theorem appendByte_h : (appendByte e room b).h = e.h := rfl
@[simp] theorem appendByte_t : (appendByte e room b).t = e.t := rfl
@[simp] theorem appendByte_f : (appendByte e room b).f = e.f := rfl
@[simp] theorem appendByte_buf :
    (appendByte e room b).buf = memWrite e.buf e.buflen.val 1 b.toNat room := rfl
@[simp] theorem appendByte_buflen : (appendByte e room b).buflen.val = e.buflen.val + 1 := rfl
@[simp] theorem appendByte_outlen : (appendByte e room b).outlen = e.outlen := rfl
@[simp] theorem appendByte_phase : (appendByte e room b).phase = e.phase := rfl

/-! ### The closed session -/

@[simp] theorem finalize_h :
    (finalize e).h =
      compressH e.h (tAdd e.t e.buflen.val) (setLastBlock e.f) (padBuffer e.buf e.buflen.val) := rfl
@[simp] theorem finalize_t : (finalize e).t = tAdd e.t e.buflen.val := rfl
@[simp] theorem finalize_f : (finalize e).f = ⟨ones, e.f.high⟩ := rfl
@[simp] theorem finalize_buf : (finalize e).buf = padBuffer e.buf e.buflen.val := rfl
@[simp] theorem finalize_buflen : (finalize e).buflen = e.buflen := rfl
@[simp] theorem finalize_outlen : (finalize e).outlen = e.outlen := rfl
@[simp] theorem finalize_phase : (finalize e).phase = .done := rfl

end

end Sys2Proof.Machine
end

