-- ==== Sys2Proof/Laws/Ops.lean ====
section
/-! SUPPORT. One lemma per shared operation that says once what it does: the block buffer, the
counter, the serialisation of words, padding, and the loop of `UPDATE`. -/

namespace Sys2Proof.Machine

/-! ### Byte strings and words -/

theorem leNat_lt (bs : List Byte) : leNat bs < 256 ^ bs.length := by
  induction bs with
  | nil => simp [leNat]
  | cons b bs ih =>
    have := b.isLt
    simp only [leNat, List.length_cons, pow_succ]
    omega

theorem le64Bytes_length (w : Word) : (le64Bytes w).length = 8 := rfl

theorem flatMap_le64Bytes_length (ws : List Word) : (ws.flatMap le64Bytes).length = 8 * ws.length := by
  induction ws with
  | nil => rfl
  | cons w ws ih => simp only [List.flatMap_cons, List.length_append, le64Bytes_length, ih, List.length_cons]; omega

theorem digestBytes_length (h : Vector Word 8) (k : Nat) (hk : k ≤ 64) :
    (digestBytes h k).length = k := by
  simp only [digestBytes, List.length_take, flatMap_le64Bytes_length, Vector.length_toList]; omega

theorem digest_length (e : Engine) : e.digest.length = e.outlen.val :=
  digestBytes_length _ _ (by omega)

/-! ### The block buffer -/

/-- One stored byte, read back at every index. -/
theorem memWrite_byte_get (buf : Vector Byte 128) (a : Nat) (b : Byte) (room : a + 1 ≤ 128)
    (i : Nat) (hi : i < 128) :
    (memWrite buf a 1 b.toNat room)[i] = if i = a then b else buf[i] := by
  simp only [memWrite, Vector.getElem_set, BitVec.ofNat_toNat, BitVec.setWidth_eq]
  split <;> split <;> first | rfl | omega

/-- The buffer after one appended byte. -/
theorem appendByte_buf_get (e : Engine) (room : e.buflen.val < 128) (b : Byte) (i : Nat)
    (hi : i < 128) :
    (appendByte e room b).buf[i] = if i = e.buflen.val then b else e.buf[i] := by
  rw [appendByte_buf]; exact memWrite_byte_get _ _ _ _ _ _

@[simp] theorem padBuffer_get (buf : Vector Byte 128) (n i : Nat) (hi : i < 128) :
    (padBuffer buf n)[i] = if i < n then buf[i] else 0 := by
  simp [padBuffer]

/-- The registers are equal when the seven items of R20 are, the buffer byte by byte. -/
theorem Engine.ext_items {e g : Engine} (h : e.h = g.h) (t : e.t = g.t) (f : e.f = g.f)
    (buf : ∀ (i : Nat) (hi : i < 128), e.buf[i] = g.buf[i]) (buflen : e.buflen.val = g.buflen.val)
    (outlen : e.outlen = g.outlen) (phase : e.phase = g.phase) : e = g := by
  have := Vector.ext buf
  have := Fin.ext buflen
  cases e; cases g; simp_all

/-! ### The parameter block -/

/-- The first parameter word (`20_memory.md` R55). -/
theorem parameterWord_zero (size : Byte) :
    parameterWord size 0 = 0x0000000001010000 + size.setWidth 64 := by
  have := size.isLt
  apply BitVec.eq_of_toNat_eq
  simp [parameterWord, parameterBlock, leNat, zeros]
  omega

/-- The other parameter words are zero (`20_memory.md` R55). -/
theorem parameterWord_pos (size : Byte) (n : Nat) (pos : n ≠ 0) (bound : n < 8) :
    parameterWord size n = 0 := by
  interval_cases n <;> simp [parameterWord, parameterBlock, leNat, zeros] at *

/-! ### The counter -/

theorem WordPair.value_lt (t : WordPair) : t.value < 2 ^ 128 := by
  have := t.low.isLt; have := t.high.isLt
  simp only [WordPair.value]; omega

theorem WordPair.ext_value {t u : WordPair} (h : t.value = u.value) : t = u := by
  obtain ⟨a, b⟩ := t; obtain ⟨c, d⟩ := u
  have := a.isLt; have := c.isLt; have := b.isLt; have := d.isLt
  simp only [WordPair.value] at h
  congr 1 <;> apply BitVec.eq_of_toNat_eq <;> omega

/-- The pair of a number modulo 2^128. -/
theorem WordPair.value_ofNat (T : Nat) :
    (⟨BitVec.ofNat 64 T, BitVec.ofNat 64 (T / 2 ^ 64)⟩ : WordPair).value = T % 2 ^ 128 := by
  simp only [WordPair.value, BitVec.toNat_ofNat]; omega

/-! ### The loop of UPDATE -/

@[simp] theorem absorb_nil (e : Engine) : absorb e [] = e := rfl

@[simp] theorem absorb_cons (e : Engine) (b : Byte) (bs : List Byte) :
    absorb e (b :: bs) = absorb (absorbByte e b) bs := rfl

theorem absorb_append (e : Engine) (a b : List Byte) : absorb e (a ++ b) = absorb (absorb e a) b :=
  List.foldl_append

/-- The two cases of one turn. -/
theorem absorbByte_cases (e : Engine) (b : Byte) :
    (∃ room, absorbByte e b = appendByte e room b) ∨
    (e.buflen.val = 128 ∧ absorbByte e b = appendByte (flushBlock e) (flushBlock_room e) b) := by
  unfold absorbByte
  split
  · exact .inr ⟨‹_›, rfl⟩
  · exact .inl ⟨by omega, rfl⟩

@[simp] theorem absorbByte_f (e : Engine) (b : Byte) : (absorbByte e b).f = e.f := by
  unfold absorbByte; split <;> rfl

@[simp] theorem absorbByte_outlen (e : Engine) (b : Byte) : (absorbByte e b).outlen = e.outlen := by
  unfold absorbByte; split <;> rfl

@[simp] theorem absorbByte_phase (e : Engine) (b : Byte) : (absorbByte e b).phase = e.phase := by
  unfold absorbByte; split <;> rfl

theorem absorbByte_buflen (e : Engine) (b : Byte) :
    (absorbByte e b).buflen.val = if e.buflen.val = 128 then 1 else e.buflen.val + 1 := by
  obtain ⟨room, h⟩ | ⟨full, h⟩ := absorbByte_cases e b
  · rw [h, if_neg (by omega)]; rfl
  · rw [h, if_pos full]; rfl

@[simp] theorem absorb_f (e : Engine) (data : List Byte) : (absorb e data).f = e.f := by
  induction data generalizing e with
  | nil => rfl
  | cons b bs ih => simp [ih]

@[simp] theorem absorb_outlen (e : Engine) (data : List Byte) :
    (absorb e data).outlen = e.outlen := by
  induction data generalizing e with
  | nil => rfl
  | cons b bs ih => simp [ih]

@[simp] theorem absorb_phase (e : Engine) (data : List Byte) : (absorb e data).phase = e.phase := by
  induction data generalizing e with
  | nil => rfl
  | cons b bs ih => simp [ih]

end Sys2Proof.Machine
end

