-- ==== Sys2Proof/Laws/Effect.lean ====
section
/-! SUPPORT. What a command does, said once: the registers after it and its response as a function
of the registers before it. Later proofs cite `exec_effect`, `runCommand_effect` and `runMove_effect`
and do not unfold the meanings. -/

namespace Sys2Proof.Machine

/-- The response of a rejection. -/
def Rejection.response (x : Rejection) : Response := ⟨x.status, x.info⟩

/-- The registers and the response of a decoded command. -/
def effect (e : Engine) : Instr → Engine × Response
  | .init arg =>
    if ok : SizeOk arg.toNat then (openSession arg ⟨arg.toNat, by omega⟩, ⟨.ok, []⟩)
    else (e, (Rejection.parameterOutOfRange arg).response)
  | .update data =>
    if e.phase = .active then (absorb e data, ⟨.ok, []⟩)
    else (e, (Rejection.sequenceError e.phase).response)
  | .final =>
    if e.phase = .active then (finalize e, ⟨.ok, (finalize e).digest⟩)
    else (e, (Rejection.sequenceError e.phase).response)
  | .cteq tag =>
    if e.phase = .done then (e, ⟨.ok, [verdict e tag]⟩)
    else (e, (Rejection.sequenceError e.phase).response)

/-! ### The cases of the effect -/

section
variable (e : Engine)

theorem effect_init_ok (arg : Byte) (low : 1 ≤ arg.toNat) (high : arg.toNat ≤ 64) :
    effect e (.init arg) = (openSession arg ⟨arg.toNat, by omega⟩, ⟨.ok, []⟩) :=
  dif_pos ⟨by omega, by omega⟩

theorem effect_init_range (arg : Byte) (bad : ¬ (1 ≤ arg.toNat ∧ arg.toNat ≤ 64)) :
    effect e (.init arg) = (e, ⟨.errRange, [arg, 0x01, 0x40]⟩) :=
  dif_neg (by omega)

theorem effect_update_active (data : List Byte) (h : e.phase = .active) :
    effect e (.update data) = (absorb e data, ⟨.ok, []⟩) := if_pos h

theorem effect_update_other (data : List Byte) (h : e.phase ≠ .active) :
    effect e (.update data) = (e, ⟨.errSeq, [e.phase.code.setWidth 8]⟩) := if_neg h

theorem effect_final_active (h : e.phase = .active) :
    effect e .final = (finalize e, ⟨.ok, (finalize e).digest⟩) := if_pos h

theorem effect_final_other (h : e.phase ≠ .active) :
    effect e .final = (e, ⟨.errSeq, [e.phase.code.setWidth 8]⟩) := if_neg h

theorem effect_cteq_done (tag : List Byte) (h : e.phase = .done) :
    effect e (.cteq tag) = (e, ⟨.ok, [verdict e tag]⟩) := if_pos h

theorem effect_cteq_other (tag : List Byte) (h : e.phase ≠ .done) :
    effect e (.cteq tag) = (e, ⟨.errSeq, [e.phase.code.setWidth 8]⟩) := if_neg h

end

/-- A decoded command answers one next state: the effect, one more response, the host's list as it
was. -/
theorem exec_effect (i : Instr) (s : State) :
    exec i s = .next ⟨(effect s.engine i).1, s.host, (effect s.engine i).2 :: s.responses⟩ := by
  cases i <;> simp only [exec, execInit, execUpdate, execFinal, execCteq, effect, ne_eq, ite_not] <;>
    split <;> rfl

/-- The registers and the response of a command word and a payload. -/
def commandEffect (e : Engine) (cmd : CmdWord) (payload : List Byte) : Engine × Response :=
  match decode cmd payload with
  | .instr i => effect e i
  | .illegal _ => (e, (Rejection.illegalCommand cmd).response)

theorem runCommand_effect (cmd : CmdWord) (payload : List Byte) (s : State) :
    runCommand cmd payload s =
      .next ⟨(commandEffect s.engine cmd payload).1, s.host,
        (commandEffect s.engine cmd payload).2 :: s.responses⟩ := by
  unfold runCommand commandEffect
  cases decode cmd payload with
  | instr i => exact exec_effect i s
  | illegal _ => rfl

/-- The registers after a move of the host, and the response it gets, if any. -/
def moveEffect (e : Engine) : HostMove → Engine × Option Response
  | .command cmd payload =>
    ((commandEffect e cmd payload).1, some (commandEffect e cmd payload).2)
  | .reset => (Engine.reset, none)
  | .commandCutByReset _ _ => (Engine.reset, none)

theorem runMove_effect (move : HostMove) (s : State) :
    runMove move s =
      .next ⟨(moveEffect s.engine move).1, s.host,
        (moveEffect s.engine move).2.toList ++ s.responses⟩ := by
  cases move with
  | command cmd payload => exact runCommand_effect cmd payload s
  | reset => rfl
  | commandCutByReset cmd payload => simp [runMove, runCommand_effect, cutByReset, moveEffect, resetEvent]

/-- All that a step can do. -/
theorem step_cases (s : State) :
    (s.host = [] ∧ step s = .next s) ∨
    (∃ move rest, s.host = move :: rest ∧ step s = runMove move { s with host := rest }) := by
  unfold step takeMove
  cases s.host with
  | nil => exact .inl ⟨rfl, rfl⟩
  | cons move rest => exact .inr ⟨move, rest, rfl, rfl⟩

end Sys2Proof.Machine
end

