-- ==== Sys2Proof/Laws/PerInstr.lean ====
section
/-! SUPPORT. One family of statements about the commands as syntax: the transaction that encodes a
command selects its own row of the opcode map, and no other. -/

namespace Sys2Proof.Laws.RowMatch

/-- The rows that the encoding of `i` selects are exactly the row of its mnemonic
(`30_encoding.md` R75, R76). -/
def Statement (i : Instr) : Prop :=
  (opcodeTable.filter fun r => r.selects (encode i).1 (encode i).2).map (fun r => r.mnemonic) =
    [i.mnemonic]

theorem init (arg : Byte) : Statement (.init arg) := by
  revert arg; unfold Statement; decide

theorem update (data : List Byte) : Statement (.update data) := by
  simp [Statement, opcodeTable, TableRow.selects, encode, encodeWord, Instr.payload, Instr.mnemonic]

theorem final : Statement .final := by unfold Statement; decide

theorem cteq (tag : List Byte) : Statement (.cteq tag) := by
  simp [Statement, opcodeTable, TableRow.selects, encode, encodeWord, Instr.payload, Instr.mnemonic]

end Sys2Proof.Laws.RowMatch
end

