-- ==== Sys2Proof/Laws/Traced.lean ====
section
/-! SUPPORT. The small lemmas of the instrumented commands: each field of each update, true by `rfl`,
and the two cases of one turn of the loop. -/

namespace Sys2Proof.Machine

section
variable (p : Traced) (g : Engine → Engine)

@[simp] theorem Traced.write_engine : (p.write g).engine = g p.engine := rfl
@[simp] theorem Traced.write_calls : (p.write g).calls = p.calls := rfl

@[simp] theorem Traced.compress_engine : p.compress.engine = Machine.compress p.engine := rfl
@[simp] theorem Traced.compress_calls :
    p.compress.calls = p.calls ++ [⟨p.engine.t, p.engine.f⟩] := rfl

@[simp] theorem tracedOpen_calls (size : Byte) (outlen : Fin 65) :
    (tracedOpen size outlen p).calls = p.calls := rfl

@[simp] theorem tracedFlush_calls :
    (tracedFlush p).calls = p.calls ++ [⟨tAdd p.engine.t 128, p.engine.f⟩] := rfl

@[simp] theorem tracedStore_calls (room : p.engine.buflen.val < 128) (b : Byte) :
    (tracedStore p room b).calls = p.calls := by rw [tracedStore, Traced.write_calls]

@[simp] theorem tracedFinalize_calls :
    (tracedFinalize p).calls =
      p.calls ++ [⟨tAdd p.engine.t p.engine.buflen.val, ⟨ones, p.engine.f.high⟩⟩] := by
  simp only [tracedFinalize, Traced.write_calls, Traced.compress_calls, Traced.write_engine]

/-- The two cases of one turn of the loop of `UPDATE`. -/
theorem tracedByte_cases (b : Byte) :
    (∃ room, tracedByte p b = tracedStore p room b) ∨
    (p.engine.buflen.val = 128 ∧ tracedByte p b = tracedStore (tracedFlush p) (tracedFlush_room p) b) := by
  unfold tracedByte
  split
  · exact .inr ⟨‹_›, rfl⟩
  · exact .inl ⟨by omega, rfl⟩

end

@[simp] theorem Trace.append_compressions (w x : Trace) :
    (w.append x).compressions = w.compressions ++ x.compressions := rfl

@[simp] theorem Trace.append_reads (w x : Trace) : (w.append x).reads = w.reads ++ x.reads := rfl

end Sys2Proof.Machine
end

