-- ==== Sys2Proof/Machine/Assembler.lean ====
section
/-! DEFINITION. The assembler syntax of `30_encoding.md` R85: one statement a line, with an optional
expected response after `->`. Text is a list of characters. Log entry 15 names what R85 leaves
open. -/

namespace Sys2Proof.Machine

/-- A line of a program: a command, or the reset event (R85). -/
inductive AsmStatement where
  | command (i : Instr)
  | reset
  deriving DecidableEq, Repr

/-- The host's move that a statement stands for (R85). -/
def AsmStatement.move : AsmStatement → HostMove
  | .command i => .command (encode i).1 (encode i).2
  | .reset => .reset

/-- A line with the response written after `->`, if any. -/
structure AsmLine where
  statement : AsmStatement
  expected : Option Response
  deriving DecidableEq, Repr

/-! ### Characters -/

/-- A blank between tokens. -/
def isBlank (c : Char) : Bool := c == ' ' || c == '\t' || c == '\r'

/-- Without the blanks at both ends. -/
def trim (cs : List Char) : List Char :=
  ((cs.dropWhile isBlank).reverse.dropWhile isBlank).reverse

/-- The value of a hexadecimal digit. -/
def hexDigit (c : Char) : Option Nat :=
  if '0' ≤ c ∧ c ≤ '9' then some (c.toNat - '0'.toNat)
  else if 'a' ≤ c ∧ c ≤ 'f' then some (c.toNat - 'a'.toNat + 10)
  else if 'A' ≤ c ∧ c ≤ 'F' then some (c.toNat - 'A'.toNat + 10)
  else none

/-- The value of a decimal digit. -/
def decDigit (c : Char) : Option Nat :=
  if '0' ≤ c ∧ c ≤ '9' then some (c.toNat - '0'.toNat) else none

/-- A decimal numeral of at least one digit. -/
def parseDecimal (cs : List Char) : Option Nat :=
  if cs.isEmpty then none
  else cs.foldl (fun acc c => do return 10 * (← acc) + (← decDigit c)) (some 0)

/-- Hexadecimal digits, two a byte (R10, R85). -/
def parseHex : List Char → Option (List Byte)
  | [] => some []
  | [_] => none
  | c :: d :: rest => do
    let hi ← hexDigit c
    let lo ← hexDigit d
    let bytes ← parseHex rest
    return BitVec.ofNat 8 (16 * hi + lo) :: bytes

/-- The text after `p`, if it begins with `p`. -/
def afterPrefix : (p cs : List Char) → Option (List Char)
  | [], cs => some cs
  | _ :: _, [] => none
  | a :: p, c :: cs => if a = c then afterPrefix p cs else none

/-- The text before a final `c`, if it ends with `c`. -/
def beforeLast (c : Char) (cs : List Char) : Option (List Char) :=
  match cs.reverse with
  | d :: rest => if d = c then some rest.reverse else none
  | [] => none

/-- The text before and after the first comma. -/
def splitComma (cs : List Char) : Option (List Char × List Char) :=
  match cs.dropWhile (· != ',') with
  | _ :: rest => some (trim (cs.takeWhile (· != ',')), trim rest)
  | [] => none

/-! ### Byte operands -/

/-- An ASCII string in double quotes (R10). -/
def parseAscii (cs : List Char) : Option (List Byte) := do
  let body ← beforeLast '"' (← afterPrefix ['"'] cs)
  if body.all fun c => c != '"' && decide (c.toNat < 128) then
    return body.map fun c => BitVec.ofNat 8 c.toNat
  else none

/-- `rep(xx, n)`: `n` copies of byte `xx` (R85). -/
def parseRep (cs : List Char) : Option (List Byte) := do
  let (byte, count) ← splitComma (← beforeLast ')' (← afterPrefix ['r', 'e', 'p', '('] cs))
  match ← parseHex byte with
  | [b] => return List.replicate (← parseDecimal count) b
  | _ => none

/-- `seq(a, n)`: the `n` bytes `a, a+1, …` taken mod 256 (R85). -/
def parseSeq (cs : List Char) : Option (List Byte) := do
  let (first, count) ← splitComma (← beforeLast ')' (← afterPrefix ['s', 'e', 'q', '('] cs))
  return seqBytes (← parseDecimal first) (← parseDecimal count)

/-- `<bytes>`: hex digits, or "ascii", or `rep(…)`, or `seq(…)`, or empty (R85). -/
def parseBytes (cs : List Char) : Option (List Byte) :=
  (parseAscii cs).or <| (parseRep cs).or <| (parseSeq cs).or <|
    parseHex (cs.filter fun c => !isBlank c)

/-! ### Lines -/

/-- The text up to a `;` that stands outside quotes. -/
def cutComment : (quoted : Bool) → List Char → List Char
  | _, [] => []
  | quoted, c :: cs =>
    if c = ';' ∧ quoted = false then [] else c :: cutComment (quoted ^^ (c == '"')) cs

/-- The text before, and the text after, a `->` that stands outside quotes. -/
def splitArrow : (quoted : Bool) → List Char → List Char × Option (List Char)
  | _, [] => ([], none)
  | quoted, c :: cs =>
    match quoted, c, cs with
    | false, '-', '>' :: rest => ([], some rest)
    | _, _, _ =>
      let (before, after) := splitArrow (quoted ^^ (c == '"')) cs
      (c :: before, after)

/-- The first word of a text and its operand. -/
def splitWord (cs : List Char) : List Char × List Char :=
  let t := trim cs
  (t.takeWhile fun c => !isBlank c, trim (t.dropWhile fun c => !isBlank c))

/-- A statement (R85). -/
def parseStatement (cs : List Char) : Option AsmStatement :=
  let (word, operand) := splitWord cs
  if word = ['I', 'N', 'I', 'T'] then do
    let k ← parseDecimal operand
    if k ≤ 255 then return .command (.init (BitVec.ofNat 8 k)) else none
  else if word = ['U', 'P', 'D', 'A', 'T', 'E'] then do return .command (.update (← parseBytes operand))
  else if word = ['F', 'I', 'N', 'A', 'L'] then
    if operand.isEmpty then some (.command .final) else none
  else if word = ['C', 'T', 'E', 'Q'] then do return .command (.cteq (← parseBytes operand))
  else if word = ['R', 'E', 'S', 'E', 'T'] then if operand.isEmpty then some .reset else none
  else none

/-- A status as R85 writes it. -/
def parseStatus (word : List Char) : Option Status :=
  if word = ['O', 'K'] then some .ok
  else if word = ['E', 'R', 'R', '_', 'R', 'A', 'N', 'G', 'E'] then some .errRange
  else if word = ['E', 'R', 'R', '_', 'S', 'E', 'Q'] then some .errSeq
  else if word = ['E', 'R', 'R', '_', 'I', 'L', 'L', 'E', 'G', 'A', 'L'] then some .errIllegal
  else none

/-- The expected response of a line (R85). -/
def parseResponse (cs : List Char) : Option Response := do
  let (word, operand) := splitWord cs
  return ⟨← parseStatus word, ← parseBytes operand⟩

/-- One line; `some none` is a line with no statement. The statement ends at the first `;` or `->`;
what follows a `->`, up to the next `;`, is the expected response when it reads as one. A line stands
alone: bytes of a response written on in the next comment line, as programs P1 and P2 of
`95_test_vectors.md` do, are not read (DESIGN CHOICE, log entry 15). -/
def parseLine (cs : List Char) : Option (Option AsmLine) :=
  let (before, after) := splitArrow false cs
  let text := trim (cutComment false before)
  if text.isEmpty then some none
  else do
    let statement ← parseStatement text
    return some ⟨statement, after.bind fun r => parseResponse (cutComment false r)⟩

/-- The lines of a text. -/
def splitLines : List Char → List (List Char)
  | [] => [[]]
  | c :: cs =>
    match splitLines cs with
    | [] => [[c]]
    | line :: rest => if c = '\n' then [] :: line :: rest else (c :: line) :: rest

/-- A program: its lines, one statement each (R85). -/
def parseProgram (cs : List Char) : Option (List AsmLine) :=
  (splitLines cs).foldr (fun line rest => do
    let parsed ← parseLine line
    let lines ← rest
    return parsed.toList ++ lines) (some [])

/-- The moves of a program, in order: what the host does with it (log entry 12). -/
def assemble (lines : List AsmLine) : List HostMove := lines.map fun l => l.statement.move

end Sys2Proof.Machine
end

