-- ==== Sys2Proof/Tests/Slice0.lean ====
section
/-! SUPPORT. Tests on small cases, each expected value from `spec/95_test_vectors.md` (V<n>) or a
numbered rule, and for each statement with hypotheses a witness that meets them. -/

namespace Sys2Proof.Tests

open Sys2Proof.Machine

/-! ### Helpers -/

/-- A machine with these registers and no history. -/
def holding (e : Engine) : State := { State.reset with engine := e }

/-- The registers after `INIT k` and one `UPDATE`. -/
def fed (k : Nat) (data : List Byte) : Engine :=
  absorb (openSession (BitVec.ofNat 8 k) (Fin.ofNat 65 k)) data

/-- The registers after `INIT k`, one `UPDATE` and `FINAL`. -/
def closed (k : Nat) (data : List Byte) : Engine := finalize (fed k data)

/-- The bytes of "abc". -/
def abc : List Byte := [0x61, 0x62, 0x63]

/-- The registers after the step, when there is a next state. -/
def engineOf : Host.Outcome State Fault Refusal → Option Engine
  | .next s => some s.engine
  | .fault _ => none
  | .refused _ => none

/-- The response of the step, when there is one. -/
def responseOf : Host.Outcome State Fault Refusal → Option Response
  | .next s => s.responses.head?
  | .fault _ => none
  | .refused _ => none

/-! ### WellFormed: a payload longer than `MAX_PAYLOAD` is refused (R9, U15) -/

theorem test_long_update_is_ill_formed :
    Instr.wellFormed ⟨some 2, 1⟩ (.update abc) = false := by decide

theorem test_long_tag_is_ill_formed :
    Instr.wellFormed ⟨some 2, 1⟩ (.cteq abc) = false := by decide

theorem test_short_update_is_well_formed :
    Instr.wellFormed ⟨some 3, 1⟩ (.update abc) = true := by decide

/-! ### Decoding (V50), words written bit by bit from R75 -/

theorem test_decode_init : decode 0b0001000001000000#16 [] = .instr (.init 64) := by decide
theorem test_decode_update : decode 0b0010000000000000#16 abc = .instr (.update abc) := by decide
theorem test_decode_final : decode 0b0011000000000000#16 [] = .instr .final := by decide
theorem test_decode_cteq : decode 0b0100000000000000#16 [0x6b] = .instr (.cteq [0x6b]) := by decide
theorem test_decode_init_payload : decode 0x1040 [0x00] = .illegal .payloadNotEmpty := by decide
theorem test_decode_rsv_first : decode 0x1100 [] = .illegal .reservedBits := by decide
theorem test_decode_update_arg : decode 0x2001 [] = .illegal .argumentNotZero := by decide
theorem test_decode_zero_word : decode 0x0000 [] = .illegal .unassignedOp := by decide

theorem test_table_word : decodeTableWord 16 0x1040 = some (.init 64) := by decide

theorem test_fetch_word :
    ((engineOf (step (State.reset.withFetchWord 16 0x1040))).map fun e => e.outlen.val) =
      some 64 := by decide +kernel

/-! ### Operations -/

theorem test_rotr : rotr 0x0123456789ABCDEF 24 = 0xABCDEF0123456789 := by decide -- V10
theorem test_le64 : le64 0 1 2 3 4 5 6 7 = 0x0706050403020100 := by decide -- V11
theorem test_counter_carry : tAdd ⟨0xFFFFFFFFFFFFFFC0, 7⟩ 64 = ⟨0, 8⟩ := by decide -- V30
theorem test_counter_no_carry :
    tAdd ⟨0xFFFFFFFFFFFFFFC0, 7⟩ 63 = ⟨0xFFFFFFFFFFFFFFFF, 7⟩ := by decide -- V30

theorem test_mix_abc : -- V18
    gMix 0x6A09E667F2BDC948 0x510E527FADE682D1 0x6A09E667F3BCC908 0x510E527FADE682D2
      0x0000000000636261 0 =
    (0xF0C9AA0F86491DEA, 0xB7DEFC3D0277E11F, 0xEE5E0F39647A9FFF, 0x7772FC2886A76C5F) := by
  decide

theorem test_compress_zero : -- V19
    compressH (Vector.replicate 8 0) ⟨0, 0⟩ ⟨0, 0⟩ (Vector.replicate 128 0) =
    #v[0x4D3F506019115AC7, 0x2FA2733D57DC0AB8, 0xD1E1C1129F845613, 0x65061DC9C8E902AC,
       0x8A5C682F464AE8CE, 0x3D9EB972A409D768, 0x61D9C25D696AE005, 0xEE2E6936BDA0EBC9] := by
  decide +kernel

theorem test_cteq_last_bit : cteqAcc [0x01] [0x81] = 0x80 := by decide -- V40

/-! ### One step of each command -/

theorem test_init_h0 : -- V21
    ((engineOf (execInit 0x40 State.reset)).map fun e => e.h[0]) =
      some 0x6A09E667F2BDC948 := by decide +kernel

theorem test_init_65 : -- V51
    responseOf (execInit 0x41 State.reset) = some ⟨.errRange, [0x41, 0x01, 0x40]⟩ := by
  decide +kernel

theorem test_update_defers_full_block : -- V8
    ((engineOf (execUpdate (seqBytes 0 128) (holding (fed 64 [])))).map
      fun e => (e.buflen.val, e.t, e.h[0], e.buf[127])) =
      some (128, ⟨0, 0⟩, 0x6A09E667F2BDC948, 0x7F) := by decide +kernel

theorem test_update_compresses_at_129 : -- V9
    ((engineOf (execUpdate [0x80] (holding (fed 64 (seqBytes 0 128))))).map
      fun e => (e.buflen.val, e.t, e.h[0], e.buf[0], e.buf[1])) =
      some (1, ⟨128, 0⟩, 0xFFA0852A267EB85A, 0x80, 0x01) := by decide +kernel

theorem test_final_abc : -- V1, the document's own vector
    responseOf (execFinal (holding (fed 64 abc))) = some ⟨.ok, hexBytes 64
      0xba80a53f981c4d0d6a2797b69f12f6e94c212f14685ac4b74b12bb6fdbffa2d17d87c5392aab792dc252d5de4533cc9518d38aa8dbf1925ab92386edd4009923⟩ := by
  decide +kernel

theorem test_final_registers : -- V26
    ((engineOf (execFinal (holding (fed 64 abc)))).map
      fun e => (e.phase, e.buflen.val, e.outlen.val, e.t, e.f, e.buf[3])) =
      some (.done, 3, 64, ⟨3, 0⟩, ⟨0xFFFFFFFFFFFFFFFF, 0⟩, 0x00) := by decide +kernel

theorem test_cteq_equal : -- R162, example
    responseOf (execCteq [0x6b] (holding (closed 1 abc))) = some ⟨.ok, [0x01]⟩ := by
  decide +kernel

theorem test_cteq_longer : -- R162, example
    responseOf (execCteq [0x6b, 0x00] (holding (closed 1 abc))) = some ⟨.ok, [0x00]⟩ := by
  decide +kernel

theorem test_second_final : -- V52
    responseOf (execFinal (holding (closed 1 abc))) = some ⟨.errSeq, [0x02]⟩ := by decide +kernel

/-! ### Host procedures and the assembler -/

theorem test_hash_256 : -- V42
    hashMessage 256 [abc] State.reset = some (.outOfRange 256 1 64, State.reset) := by
  decide +kernel

theorem test_verify_wrong_tag : -- R162, R173
    (verify [abc] [0x6a] State.reset).map (fun r => r.1) = some false := by decide +kernel

theorem test_assemble_line : -- P1
    parseLine "UPDATE \"abc\"  ; 0x2000 -> OK".toList =
      some (some ⟨.command (.update abc), some ⟨.ok, []⟩⟩) := by decide +kernel

theorem test_assemble_rep : -- R85
    parseLine "CTEQ rep(ff, 2) -> ERR_SEQ 00".toList =
      some (some ⟨.command (.cteq [0xff, 0xff]), some ⟨.errSeq, [0x00]⟩⟩) := by decide +kernel

theorem test_traced_update_129 : -- V9: one compression, t = (128, 0), f = (0, 0)
    (tracedExec (.update [0x80]) (holding (fed 64 (seqBytes 0 128)))).2 =
      ⟨[⟨⟨128, 0⟩, ⟨0, 0⟩⟩], []⟩ := by decide +kernel

/-! ### Witnesses: what the statements assume can hold, clause by clause at the edges -/

/-- The host is about to send this move. -/
def facing (move : HostMove) (e : Engine) : State := ⟨e, [move], []⟩

theorem witness_StepRunsTheDecodedCommand :
    (facing (.command 0x3000 []) (fed 1 abc)).host = .command 0x3000 [] :: [] ∧
      decode 0x3000 [] = .instr .final ∧ decode 0x3001 [] = .illegal .argumentNotZero := by
  decide +kernel

theorem witness_WaitingChangesNothing : State.reset.host = [] := rfl

theorem witness_ResetEventClearsEveryRegister :
    (facing .reset (closed 1 abc)).host = .reset :: [] ∧
      (engineOf (runMove (.command 0x3000 []) State.reset)).map (fun e => e.phase) =
        some .idle ∧
      (holding (closed 1 abc)).engine.phase = .done ∧
      (engineOf (runMove (.command 0x1001 []) (holding (closed 1 abc)))).map (fun e => e.phase) =
        some .active := by decide +kernel

theorem witness_ResetDuringACommandLosesItsResponse :
    (facing (.commandCutByReset 0x3000 []) (fed 1 abc)).host =
      .commandCutByReset 0x3000 [] :: [] := rfl

theorem witness_AfterResetOnlyInitIsAccepted :
    State.reset.engine = Engine.reset ∧
      responseOf (exec (.init 1) State.reset) = some ⟨.ok, []⟩ ∧
      responseOf (exec (.init 64) State.reset) = some ⟨.ok, []⟩ ∧
      responseOf (exec (.init 0) State.reset) = some ⟨.errRange, [0, 0x01, 0x40]⟩ ∧
      responseOf (exec (.init 65) State.reset) = some ⟨.errRange, [65, 0x01, 0x40]⟩ := by
  decide +kernel

theorem witness_IllegalCommandsAreRejected :
    decode 0x0FFF [] = .illegal .reservedBits ∧ decode 0x5000 [] = .illegal .unassignedOp ∧
      decode 0xF000 [] = .illegal .unassignedOp ∧ decode 0x0000 [] = .illegal .unassignedOp ∧
      decode 0x4001 [] = .illegal .argumentNotZero ∧
      decode 0x1000 [0] = .illegal .payloadNotEmpty ∧
      decode 0x3000 [0] = .illegal .payloadNotEmpty := by decide

theorem witness_InitOpensASession :
    (1 ≤ (1 : Byte).toNat ∧ (1 : Byte).toNat ≤ 64) ∧
      1 ≤ (64 : Byte).toNat ∧ (64 : Byte).toNat ≤ 64 := by decide

theorem witness_InitOutOfRangeIsRejected :
    (0 : Byte).toNat = 0 ∧ 65 ≤ (65 : Byte).toNat ∧ 65 ≤ (255 : Byte).toNat := by decide

theorem witness_InitForgetsTheSessionBefore : 1 ≤ (1 : Byte).toNat ∧ (1 : Byte).toNat ≤ 64 := by
  decide

theorem witness_UpdateIsTheBlockForm :
    (holding (fed 1 abc)).engine.phase = .active ∧
      (holding (closed 1 abc)).engine.phase ≠ .active ∧ State.reset.engine.phase ≠ .active := by
  decide +kernel

theorem witness_UpdateWithinTheBufferOnlyAppends :
    (holding (fed 1 abc)).engine.phase = .active ∧
      (holding (fed 1 abc)).engine.buflen.val + (seqBytes 0 125).length ≤ 128 ∧
      (holding (fed 1 [])).engine.phase = .active ∧
      (holding (fed 1 [])).engine.buflen.val + ([] : List Byte).length ≤ 128 := by decide +kernel

theorem witness_UpdateCountsCompressions :
    (holding (fed 1 [])).engine.phase = .active ∧
      (holding (fed 1 [])).engine.buflen.val + ([] : List Byte).length = 0 ∧
      (holding (fed 1 (seqBytes 0 128))).engine.phase = .active ∧
      (holding (fed 1 (seqBytes 0 128))).engine.buflen.val = 128 := by decide +kernel

theorem witness_FinalClosesTheSession :
    (holding (fed 1 [])).engine.phase = .active ∧
      (holding (fed 64 (seqBytes 0 128))).engine.phase = .active := by decide +kernel

theorem witness_DigestHasTheSessionsLength :
    (holding (fed 1 [])).engine.phase = .active ∧
      ((1 : Int) ≤ 1 ∧ (1 : Int) ≤ 64) ∧ ((1 : Int) ≤ 64 ∧ (64 : Int) ≤ 64) ∧
      ((0 : Int) < 1 ∨ (64 : Int) < 0) ∧ ((65 : Int) < 1 ∨ (64 : Int) < 65) ∧
      ((-1 : Int) < 1 ∨ (64 : Int) < -1) ∧ ((256 : Int) < 1 ∨ (64 : Int) < 256) ∧
      ((0 : Byte).toNat < 1 ∨ 64 < (0 : Byte).toNat) ∧
      ((65 : Byte).toNat < 1 ∨ 64 < (65 : Byte).toNat) := by decide +kernel

theorem witness_DigestBytesAreLittleEndian :
    (64 ≤ 64 ∧ 63 < 64 ∧ 63 / 8 < 8) ∧ (1 ≤ 64 ∧ 0 < 1 ∧ 0 / 8 < 8) := by decide

theorem witness_CteqComparesWithTheHeldDigest : (holding (closed 1 abc)).engine.phase = .done := by
  decide +kernel

theorem witness_MalformedTagsLookLikeWrongTags :
    (holding (closed 1 abc)).engine.phase = .done ∧
      ([] : List Byte).length ≠ (holding (closed 1 abc)).engine.outlen.val ∧
      ([0x6a] : List Byte).length = (holding (closed 1 abc)).engine.outlen.val ∧
      [0x6a] ≠ (holding (closed 1 abc)).engine.digest := by decide +kernel

theorem witness_ComparatorDecidesEquality :
    ([] : List Byte).length = ([] : List Byte).length ∧
      ([0x01] : List Byte).length = ([0x81] : List Byte).length ∧ 0 < [(0x01 : Byte)].length := by
  decide

theorem witness_ComparatorReadsDependOnLengthOnly :
    ([0x01] : List Byte).length = ([0x81] : List Byte).length ∧
      (holding (closed 1 abc)).engine.phase = .done ∧
      (holding (closed 1 abc)).engine.outlen.val = ([0x6a] : List Byte).length ∧
      (holding (closed 1 abc)).engine.outlen.val ≠ ([] : List Byte).length := by decide +kernel

theorem witness_CommandsOutOfSequenceAreRejected :
    State.reset.engine.phase ≠ .active ∧ State.reset.engine.phase ≠ .done ∧
      (holding (fed 1 abc)).engine.phase ≠ .done ∧
      (holding (closed 1 abc)).engine.phase ≠ .active := by decide +kernel

theorem witness_OutlenIsFixedForTheSession :
    (engineOf (runCommand 0x3000 [] (holding (fed 1 abc)))).map (fun e => e.outlen.val) =
        some 1 ∧
      (engineOf (runCommand 0x1040 [] (holding (fed 1 abc)))).map (fun e => e.outlen.val) =
        some 64 := by decide +kernel

theorem witness_OutcomeDependsOnRegistersAndCommandOnly :
    (facing .reset (fed 1 abc)).engine = (holding (fed 1 abc)).engine := rfl

theorem witness_RotationLosesNoBit : (0 < 1 ∧ 1 < 64 ∧ 63 < 64) ∧ 0 < 63 ∧ 63 < 64 ∧ 0 < 64 := by
  decide

theorem witness_CallsOfOneStepCommute :
    ((0 : Fin 8) ≠ 3 ∧ (0 : Fin 8).val / 4 = (3 : Fin 8).val / 4) ∧
      (4 : Fin 8) ≠ 7 ∧ (4 : Fin 8).val / 4 = (7 : Fin 8).val / 4 := by decide

theorem witness_CounterAddsWithCarry : 0 ≤ 128 ∧ 128 ≤ 128 := by decide

theorem witness_StepKeepsTheInvariant :
    (facing (.command 0x1040 []) Engine.reset).Inv ∧
      (engineOf (step (facing (.command 0x1040 []) Engine.reset))).map (fun e => e.phase) =
        some .active :=
  ⟨⟨rfl, by simp [facing]⟩, by decide +kernel⟩

theorem witness_holds_open : (fed 1 abc).HoldsOpen 1 abc :=
  ⟨rfl, rfl, by decide, by decide +kernel, rfl, by decide +kernel, by decide +kernel,
    by decide +kernel⟩

theorem witness_holds_done : (closed 1 abc).HoldsDone 1 abc :=
  ⟨rfl, rfl, by decide, by decide +kernel, rfl, by decide +kernel, by decide +kernel,
    by decide +kernel⟩

theorem witness_RegistersRefineTheSession :
    State.reset.engine.Holds .absent ∧ (holding (fed 1 abc)).engine.Holds (.opened 1 abc) ∧
      (holding (closed 1 abc)).engine.Holds (.finished 1 abc) :=
  ⟨rfl, witness_holds_open, witness_holds_done⟩

theorem witness_SessionComputesBlake2bCore :
    1 ≤ (1 : Byte).toNat ∧ (64 : Byte).toNat ≤ 64 ∧
      ([] : List (List Byte)).flatten.length < 2 ^ 128 ∧ [abc, []].flatten.length < 2 ^ 128 := by
  decide

theorem witness_ChunkingDoesNotMatter :
    1 ≤ (1 : Byte).toNat ∧ (1 : Byte).toNat ≤ 64 ∧
      [abc].flatten = [[0x61], [], [0x62, 0x63]].flatten ∧
      ([] : List (List Byte)).flatten = [[]].flatten := by decide

theorem witness_UpdatesConcatenate : (holding (fed 1 abc)).engine.phase = .active := by
  decide +kernel

theorem witness_LastBlockIsDeferred :
    1 ≤ (1 : Byte).toNat ∧ (64 : Byte).toNat ≤ 64 ∧
      ([] : List (List Byte)).flatten.length < 2 ^ 128 ∧
      [seqBytes 0 128, [0x80]].flatten.length < 2 ^ 128 := by decide +kernel

/-- The clauses of accepted and of rejected commands are all met. -/
theorem witness_WorkOfEachCommand :
    (responseOf (runCommand 0x1001 [] State.reset)).map (fun r => r.status) = some .ok ∧
      (responseOf (runCommand 0x2000 [0x61] (holding (fed 1 (seqBytes 0 128))))).map
        (fun r => r.status) = some .ok ∧
      (responseOf (runCommand 0x3000 [] (holding (fed 1 [])))).map (fun r => r.status) =
        some .ok ∧
      (responseOf (runCommand 0x4000 [0x6b] (holding (closed 1 abc)))).map (fun r => r.status) =
        some .ok ∧
      (responseOf (runCommand 0x5000 [] State.reset)).map (fun r => r.status) =
        some .errIllegal := by decide +kernel

theorem witness_HashReturnsBlake2bCore :
    ((1 : Int) ≤ 1 ∧ (64 : Int) ≤ 64) ∧ [abc].flatten.length < 2 ^ 128 := by decide

theorem witness_VerifyDecidesTheTag :
    [abc].flatten.length < 2 ^ 128 ∧ ([] : List Byte).length < 1 ∧
      64 < (seqBytes 0 65).length := by decide

theorem witness_VerifyContinuationConsumesTheSession :
    (holding (fed 1 abc)).engine.HoldsOpen 1 abc ∧ State.reset.engine.phase ≠ .active :=
  ⟨witness_holds_open, by decide⟩

theorem witness_PayloadBoundLimitsNoMessage :
    Config.maxPayload ⟨some 1, 1⟩ ≠ some 0 ∧ Config.maxPayload ⟨none, 1⟩ ≠ some 0 ∧
      (1 : Int) ≤ 64 ∧ abc.length < 2 ^ 128 := by decide

end Sys2Proof.Tests
end

section
/-! ## Waiting and rotation (`00_scope.md` R11, R16) -/

namespace Sys2Proof.Machine

/-- Settles O2: of the two cases of a step, only waiting has an empty list of moves. -/
theorem waitingChangesNothing : Obligations.WaitingChangesNothing := by
  intro s silent
  obtain ⟨-, waits⟩ | ⟨move, rest, pending, -⟩ := step_cases s
  · exact waits
  · simp [silent] at pending

/-- Settles O31: the right shift gives the bits below `64 - n`, the left shift those from there
on. -/
theorem rotationLosesNoBit : Obligations.RotationLosesNoBit := by
  intro a n i _ _ inWord
  simp only [rotr, BitVec.getLsbD_or, BitVec.getLsbD_ushiftRight, BitVec.getLsbD_shiftLeft]
  by_cases low : i + n < 64
  · have inLeftGap : i < 64 - n := by omega
    rw [Nat.mod_eq_of_lt low, Nat.add_comm i n]
    simp [inLeftGap]
  · have wrapped : (i + n) % 64 = i - (64 - n) := by omega
    have shiftedOut : a.getLsbD (n + i) = false := BitVec.getLsbD_of_ge _ _ (by omega)
    have reached : ¬ i < 64 - n := by omega
    rw [wrapped, shiftedOut]
    simp [reached, inWord]

end Sys2Proof.Machine
end

section
/-! ## The transactions a host sends (`30_encoding.md` R75, R78; `43_pseudo_commands.md` R170) -/

namespace Sys2Proof.Machine

/-! ### Commands and their words -/

@[simp] theorem decode_encode (i : Instr) : decode (encode i).1 (encode i).2 = .instr i := by
  cases i with
  | init arg =>
    have reserved : rsvField (encodeWord (.init arg)) = 0 := by revert arg; decide
    have op : opField (encodeWord (.init arg)) = 1 := by revert arg; decide
    have size : argField (encodeWord (.init arg)) = arg := by revert arg; decide
    simp [encode, decode, Instr.payload, reserved, op, size]
  | update data => simp [encode, decode, encodeWord, Instr.payload, rsvField, opField, argField]
  | final => rfl
  | cteq tag => simp [encode, decode, encodeWord, Instr.payload, rsvField, opField, argField]

theorem encodeWord_init (arg : Byte) : encodeWord (.init arg) = 0x1000 + arg.setWidth 16 := by
  revert arg
  decide

/-- The word of `INIT` as a host computes it from the size. -/
theorem encodeWord_init_ofInt (k : Int) (low : 0 ≤ k) (high : k ≤ 255) :
    0x1000 + BitVec.ofInt 16 k = encodeWord (.init (BitVec.ofNat 8 k.toNat)) := by
  obtain ⟨n, rfl⟩ := Int.eq_ofNat_of_zero_le low
  rw [encodeWord_init, Int.toNat_natCast]
  congr 1
  apply BitVec.eq_of_toNat_eq
  simp
  omega

/-! ### The engine's answer -/

/-- The host's view of one decoded command: its response, and the registers it leaves. -/
theorem transact_encode (i : Instr) (s : State) :
    transact (encode i).1 (encode i).2 s =
      some ((effect s.engine i).2,
        ⟨(effect s.engine i).1, s.host, (effect s.engine i).2 :: s.responses⟩) := by
  simp [transact, runCommand_effect, commandEffect]

end Sys2Proof.Machine
end

section
/-! ## What the registers hold while a message comes in (`10_state.md` R34, R35)

`HoldsBlocks` counts the blocks compressed so far apart from the bytes that are pending, so that it
also describes the buffer just emptied, in the middle of a turn of the loop of `UPDATE`. -/

namespace Sys2Proof.Machine

/-! ### The counter -/

theorem tAdd_value (t : WordPair) (c : Nat) (small : c < 2 ^ 64) :
    (tAdd t c).value = (t.value + c) % 2 ^ 128 := by
  have := t.low.isLt
  have := t.high.isLt
  simp only [tAdd, WordPair.value, BitVec.toNat_add, BitVec.toNat_ofNat]
  split <;> simp <;> omega

/-- A compression whose counter has the value of `T` is `F` at `T` (R115). -/
theorem compressH_eq_coreF (h : Vector Word 8) (t : WordPair) (block : Vector Byte 128) (T : Nat)
    (f0 : Word) (value : t.value = T % 2 ^ 128) :
    compressH h t ⟨f0, 0⟩ block = coreF h block T f0 := by
  rw [coreF, WordPair.ext_value (value.trans (WordPair.value_ofNat T).symm)]

/-! ### The message behind the registers -/

theorem messageBlock_get (d : List Byte) (n i : Nat) (hi : i < 128) :
    (messageBlock d n)[i] = d.getD (128 * n + i) 0 := by
  simp [messageBlock]

/-- More bytes do not change a block that is complete. -/
theorem messageBlock_append (d x : List Byte) (n : Nat) (complete : 128 * (n + 1) ≤ d.length) :
    messageBlock (d ++ x) n = messageBlock d n := by
  ext i hi : 1
  rw [messageBlock_get, messageBlock_get, List.getD_append _ _ _ _ (by omega)]

theorem chain_append (k : Nat) (d x : List Byte) (n : Nat) (complete : 128 * n ≤ d.length) :
    chain k (d ++ x) n = chain k d n := by
  induction n with
  | zero => rfl
  | succ n ih => rw [chain, chain, ih (by omega), messageBlock_append d x n complete]

theorem initialH_eq_chain (size : Byte) (d : List Byte) : initialH size = chain size.toNat d 0 := by
  ext i hi : 1
  have widened : BitVec.ofNat 64 size.toNat = size.setWidth 64 := BitVec.ofNat_toNat 64 size
  rw [chain, Vector.getElem_set, widened]
  by_cases first : 0 = i
  · subst first
    simp [initialH, parameterWord_zero]
  · rw [if_neg first]
    simp [initialH, parameterWord_pos size i (by omega) hi]

/-- All pending blocks of a message but its last are complete (R34). -/
theorem pendingCount_add (n : Nat) : 128 * ((n - 1) / 128) + pendingCount n = n := by
  unfold pendingCount
  split <;> omega

theorem blockCount_pred (n : Nat) : blockCount n - 1 = (n - 1) / 128 := by
  unfold blockCount
  omega

/-! ### The pending bytes -/

theorem padBuffer_full (buf : Vector Byte 128) : padBuffer buf 128 = buf := by
  ext i hi : 1
  rw [padBuffer_get, if_pos hi]

theorem appendByte_buf_toList (e : Engine) (room : e.buflen.val < 128) (b : Byte) :
    (appendByte e room b).buf.toList = e.buf.toList.set e.buflen.val b := by
  simp [memWrite, Vector.toList_set]

/-- The pending bytes after one more is stored. -/
theorem appendByte_pending (e : Engine) (room : e.buflen.val < 128) (b : Byte) :
    (appendByte e room b).buf.toList.take (e.buflen.val + 1) =
      e.buf.toList.take e.buflen.val ++ [b] := by
  rw [appendByte_buf_toList, List.take_succ_eq_append_getElem (by simpa using room),
    List.getElem_set_self, List.take_set_of_le le_rfl]

/-- The registers of an open session of digest size `k` that has taken the message `d` and has
compressed its first `n` blocks; the bytes after them are pending. -/
structure Engine.HoldsBlocks (e : Engine) (k : Nat) (d : List Byte) (n : Nat) : Prop where
  phase : e.phase = .active
  outlen : e.outlen.val = k
  size : 1 ≤ k
  length : d.length = 128 * n + e.buflen.val
  flags : e.f = ⟨0, 0⟩
  counter : e.t.value = 128 * n % 2 ^ 128
  chained : e.h = chain k d n
  pending : e.buf.toList.take e.buflen.val = d.drop (128 * n)

/-- R34 is the case in which the last block waits, full or not (`40_driver.md` R108). -/
theorem Engine.holdsOpen_iff (e : Engine) (k : Nat) (d : List Byte) :
    e.HoldsOpen k d ↔ e.HoldsBlocks k d ((d.length - 1) / 128) := by
  have blocksAndRest := pendingCount_add d.length
  have compressed : d.length - pendingCount d.length = 128 * ((d.length - 1) / 128) := by omega
  have blocks : 128 * ((d.length - 1) / 128) / 128 = (d.length - 1) / 128 := by omega
  constructor
  · rintro ⟨phase, outlen, size, buflen, flags, counter, chained, pending⟩
    rw [compressed] at counter chained pending
    rw [blocks] at chained
    exact ⟨phase, outlen, size, by omega, flags, counter, chained, pending⟩
  · rintro ⟨phase, outlen, size, length, flags, counter, chained, pending⟩
    refine ⟨phase, outlen, size, by omega, flags, ?_, ?_, ?_⟩ <;> rw [compressed]
    · exact counter
    · rw [blocks]; exact chained
    · exact pending

namespace Engine.HoldsBlocks
variable {e : Engine} {k : Nat} {d : List Byte} {n : Nat}

/-- The pending bytes with zeros after them are the next block of the message. -/
theorem padBuffer_eq (holds : e.HoldsBlocks k d n) :
    padBuffer e.buf e.buflen.val = messageBlock d n := by
  obtain ⟨-, -, -, length, -, -, -, pending⟩ := holds
  ext i hi : 1
  rw [padBuffer_get, messageBlock_get]
  split
  case isTrue stored =>
    have := congrArg (·[i]?) pending
    simp [stored] at this
    simp [← this, hi]
  case isFalse beyond => rw [List.getD_eq_default _ _ (by omega)]

theorem append (holds : e.HoldsBlocks k d n) (room : e.buflen.val < 128) (b : Byte) :
    (appendByte e room b).HoldsBlocks k (d ++ [b]) n := by
  obtain ⟨phase, outlen, size, length, flags, counter, chained, pending⟩ := holds
  have complete : 128 * n ≤ d.length := by omega
  refine ⟨phase, outlen, size, ?_, flags, counter, ?_, ?_⟩
  · simp [length, Nat.add_assoc]
  · rw [appendByte_h, chained, chain_append k d [b] n complete]
  · rw [appendByte_buflen, appendByte_pending, pending, List.drop_append_of_le_length complete]

theorem flush (holds : e.HoldsBlocks k d n) (full : e.buflen.val = 128) :
    (flushBlock e).HoldsBlocks k d (n + 1) := by
  have block := holds.padBuffer_eq
  rw [full, padBuffer_full] at block
  obtain ⟨phase, outlen, size, length, flags, counter, chained, pending⟩ := holds
  have advanced : (tAdd e.t 128).value = 128 * (n + 1) % 2 ^ 128 := by
    rw [tAdd_value _ _ (by omega), counter]; omega
  refine ⟨phase, outlen, size, ?_, flags, advanced, ?_, ?_⟩
  · rw [flushBlock_buflen, length, full]; rfl
  · rw [flushBlock_h, flags, compressH_eq_coreF _ _ _ _ _ advanced, chained, block, chain]
  · rw [List.drop_eq_nil_of_le (by omega)]; rfl

end Engine.HoldsBlocks

/-! ### INIT, UPDATE and FINAL on what the registers hold -/

namespace Engine.HoldsOpen
variable {e : Engine} {k : Nat} {d : List Byte}

theorem openSession (size : Byte) (outlen : Fin 65) (same : outlen.val = size.toNat)
    (low : 1 ≤ size.toNat) : (openSession size outlen).HoldsOpen size.toNat [] :=
  ⟨rfl, same, low, rfl, rfl, rfl, initialH_eq_chain size [], rfl⟩

theorem absorbByte (holds : e.HoldsOpen k d) (b : Byte) :
    (absorbByte e b).HoldsOpen k (d ++ [b]) := by
  rw [Engine.holdsOpen_iff] at holds ⊢
  have length := holds.length
  have blocks : ((d ++ [b]).length - 1) / 128 = d.length / 128 := by simp
  rw [blocks]
  by_cases full : e.buflen.val = 128
  · have next : d.length / 128 = (d.length - 1) / 128 + 1 := by omega
    rw [next, Machine.absorbByte, dif_pos full]
    exact (holds.flush full).append _ b
  · have same : d.length / 128 = (d.length - 1) / 128 := by omega
    rw [same, Machine.absorbByte, dif_neg full]
    exact holds.append _ b

theorem absorb (holds : e.HoldsOpen k d) (data : List Byte) :
    (absorb e data).HoldsOpen k (d ++ data) := by
  induction data generalizing e d with
  | nil => simpa using holds
  | cons b bs ih => simpa using ih (holds.absorbByte b)

theorem finalize (holds : e.HoldsOpen k d) : (finalize e).HoldsDone k d := by
  have buflen := holds.buflen
  rw [Engine.holdsOpen_iff] at holds
  have block := holds.padBuffer_eq
  obtain ⟨-, outlen, size, length, flags, counter, chained, -⟩ := holds
  have advanced : (tAdd e.t e.buflen.val).value = d.length % 2 ^ 128 := by
    rw [tAdd_value _ _ (by omega), counter]; omega
  refine ⟨rfl, outlen, size, buflen, ?_, advanced, ?_, ?_⟩
  · rw [finalize_f, flags]
  · rw [finalize_h, flags, setLastBlock, compressH_eq_coreF _ _ _ _ _ advanced, chained, block,
      coreH, blockCount_pred]
  · intro i beyond
    rw [finalize_buflen] at beyond
    rw [finalize_buf, Fin.getElem_fin, padBuffer_get, if_neg (by omega)]

end Engine.HoldsOpen

theorem Engine.HoldsDone.digest_eq {e : Engine} {k : Nat} {d : List Byte} (holds : e.HoldsDone k d) :
    e.digest = blake2bCore d k := by
  rw [Engine.digest, holds.final, holds.outlen, blake2bCore]

end Sys2Proof.Machine
end

section
/-! ## HASH under a payload bound (`00_scope.md` R9, `43_pseudo_commands.md` R171) -/

namespace Sys2Proof.Machine

/-! ### The responses of a session -/

theorem transact_init (k : Int) (low : 1 ≤ k) (high : k ≤ 64) (s : State) :
    ∃ t, transact (0x1000 + BitVec.ofInt 16 k) [] s = some (⟨.ok, []⟩, t) ∧
      t.engine.HoldsOpen k.toNat [] := by
  have size : (BitVec.ofNat 8 k.toNat).toNat = k.toNat := by simp; omega
  rw [encodeWord_init_ofInt k (by omega) (by omega)]
  generalize BitVec.ofNat 8 k.toNat = arg at size ⊢
  have answer := transact_encode (.init arg) s
  rw [effect_init_ok _ _ (by omega) (by omega)] at answer
  rw [← size]
  exact ⟨_, answer, .openSession arg _ rfl (by omega)⟩

theorem transact_update (data : List Byte) {s : State} {k : Nat} {d : List Byte}
    (holds : s.engine.HoldsOpen k d) :
    ∃ t, transact 0x2000 data s = some (⟨.ok, []⟩, t) ∧ t.engine.HoldsOpen k (d ++ data) := by
  have answer := transact_encode (.update data) s
  rw [effect_update_active _ _ holds.phase] at answer
  exact ⟨_, answer, holds.absorb data⟩

theorem transact_final {s : State} {k : Nat} {d : List Byte} (holds : s.engine.HoldsOpen k d) :
    ∃ t, transact 0x3000 [] s = some (⟨.ok, blake2bCore d k⟩, t) ∧ t.engine.HoldsDone k d := by
  have answer := transact_encode .final s
  rw [effect_final_active _ holds.phase, holds.finalize.digest_eq] at answer
  exact ⟨_, answer, holds.finalize⟩

/-! ### HASH -/

/-- An open session takes the message in any cut. -/
theorem sendMessage_holdsOpen (chunks : List (List Byte)) {s : State} {k : Nat} {d : List Byte}
    (holds : s.engine.HoldsOpen k d) :
    ∃ t, sendMessage chunks s = some t ∧ t.engine.HoldsOpen k (d ++ chunks.flatten) := by
  induction chunks generalizing s d with
  | nil => exact ⟨s, rfl, by simpa using holds⟩
  | cons chunk rest ih =>
    obtain ⟨u, accepted, holdsMore⟩ := transact_update chunk holds
    obtain ⟨t, sent, holdsAll⟩ := ih holdsMore
    exact ⟨t, by simp only [sendMessage, accepted, sent], by simpa using holdsAll⟩

/-- `HASH` at a valid size, from every state and for every cut of the message (R171). -/
theorem hashMessage_digest (k : Int) (chunks : List (List Byte)) (s : State) (low : 1 ≤ k)
    (high : k ≤ 64) :
    ∃ t, hashMessage k chunks s = some (.digest (blake2bCore chunks.flatten k.toNat), t) ∧
      t.engine.HoldsDone k.toNat chunks.flatten := by
  obtain ⟨opened, accepted, holdsNothing⟩ := transact_init k low high s
  obtain ⟨fed, sent, holdsMessage⟩ := sendMessage_holdsOpen chunks holdsNothing
  rw [List.nil_append] at holdsMessage
  obtain ⟨closed, answered, holdsDone⟩ := transact_final holdsMessage
  have encodable : ¬ (k < 0 ∨ 255 < k) := by omega
  refine ⟨closed, ?_, holdsDone⟩
  simp only [hashMessage, if_neg encodable, accepted, sent, answered, reduceCtorEq, if_false]

/-! ### The cut -/

/-- Every message can be sent one byte at a time. -/
theorem exists_cut_into_bytes (d : List Byte) :
    ∃ chunks : List (List Byte), chunks.flatten = d ∧ ∀ c ∈ chunks, c.length = 1 := by
  refine ⟨d.map fun b => [b], ?_, ?_⟩
  · rw [← List.flatMap_def, List.flatMap_singleton']
  · intro c member
    obtain ⟨b, -, rfl⟩ := List.mem_map.mp member
    rfl

/-- The host carries a single byte under every bound but zero. -/
theorem carries_one (cfg : Config) (bound : cfg.maxPayload ≠ some 0) : cfg.carries 1 = true := by
  unfold Config.carries
  cases limit : cfg.maxPayload with
  | none => rfl
  | some m =>
    have positive : m ≠ 0 := by rintro rfl; exact bound limit
    exact decide_eq_true (by omega)

/-- Settles O50: the host sends the message byte by byte, which every bound but zero allows. The
length of the message is not needed, since `blake2b_core` wraps where the counter does. -/
theorem payloadBoundLimitsNoMessage : Obligations.PayloadBoundLimitsNoMessage := by
  intro cfg k d s bound low high _
  obtain ⟨chunks, rfl, single⟩ := exists_cut_into_bytes d
  obtain ⟨t, hashed, -⟩ := hashMessage_digest k chunks s low high
  refine ⟨chunks, t, rfl, ?_, hashed⟩
  intro chunk member
  have carried := carries_one cfg bound
  rwa [← single chunk member] at carried

end Sys2Proof.Machine
end

section
/-! ## The verdict of CTEQ (`42_comparator.md` R160, R162) -/

namespace Sys2Proof.Machine

/-- The loop of `cteq` from any accumulator: a bit that is set once stays set. -/
theorem cteq_loop_eq_zero_iff (a b : List Byte) (acc : Byte) (same : a.length = b.length) :
    (a.zip b).foldl (fun acc p => acc ||| (p.1 ^^^ p.2)) acc = 0 ↔ acc = 0 ∧ a = b := by
  induction a generalizing b acc with
  | nil => simp [List.length_eq_zero_iff.mp same.symm]
  | cons x xs ih =>
    obtain ⟨y, ys, rfl⟩ := List.exists_cons_of_length_eq_add_one same.symm
    have tails : xs.length = ys.length := by simpa using same
    rw [List.zip_cons_cons, List.foldl_cons, ih ys _ tails]
    simp [and_assoc]

theorem cteq_eq_true_iff (a b : List Byte) (same : a.length = b.length) :
    cteq a b = true ↔ a = b := by
  rw [cteq, beq_iff_eq, cteqAcc, cteq_loop_eq_zero_iff a b 0 same]
  simp

/-- The verdict tells whether the tag is the digest held, in length and in bytes. -/
theorem verdict_eq (e : Engine) (tag : List Byte) :
    verdict e tag = if tag = e.digest then 0x01 else 0x00 := by
  have size := digest_length e
  by_cases same : tag.length = e.outlen.val
  · simp [verdict, same, cteq_eq_true_iff e.digest tag (by omega), eq_comm]
  · have wrong : tag ≠ e.digest := by rintro rfl; exact same size
    simp [verdict, same, wrong]

end Sys2Proof.Machine
end

section
/-! ## The invariant of the registers and the response table (`10_state.md` R34 to R36,
`30_encoding.md` R84) -/

namespace Sys2Proof.Machine

/-! ### UPDATE keeps the counter a multiple of the block and leaves no empty buffer -/

theorem absorbByte_counter_mod (e : Engine) (b : Byte) :
    (absorbByte e b).t.value % 128 = e.t.value % 128 := by
  obtain ⟨room, stored⟩ | ⟨-, flushed⟩ := absorbByte_cases e b
  · rw [stored, appendByte_t]
  · rw [flushed, appendByte_t, flushBlock_t, tAdd_value _ _ (by omega)]
    omega

theorem absorb_counter_mod (e : Engine) (data : List Byte) :
    (absorb e data).t.value % 128 = e.t.value % 128 := by
  induction data generalizing e with
  | nil => rfl
  | cons b bs ih => rw [absorb_cons, ih, absorbByte_counter_mod]

theorem absorbByte_buflen_ne_zero (e : Engine) (b : Byte) : (absorbByte e b).buflen.val ≠ 0 := by
  rw [absorbByte_buflen]
  split <;> omega

theorem absorb_buflen_ne_zero (e : Engine) (data : List Byte) (filled : e.buflen.val ≠ 0) :
    (absorb e data).buflen.val ≠ 0 := by
  induction data generalizing e with
  | nil => exact filled
  | cons b bs ih => exact ih _ (absorbByte_buflen_ne_zero e b)

/-- Only the empty payload leaves the buffer empty, and it changes no register (`40_driver.md`
R107). -/
theorem absorb_eq_of_buflen_zero (e : Engine) (data : List Byte)
    (empty : (absorb e data).buflen.val = 0) : absorb e data = e := by
  cases data with
  | nil => rfl
  | cons b bs => exact absurd empty (absorb_buflen_ne_zero _ bs (absorbByte_buflen_ne_zero e b))

/-! ### The invariant, phase by phase -/

theorem Engine.inv_iff_of_active {e : Engine} (active : e.phase = .active) :
    e.Inv ↔ 1 ≤ e.outlen.val ∧ e.f = ⟨0, 0⟩ ∧ e.t.value % 128 = 0 ∧
      (e.buflen.val = 0 → e = openSession (BitVec.ofNat 8 e.outlen.val) e.outlen) := by
  simp only [Engine.Inv, active]

theorem Engine.inv_iff_of_done {e : Engine} (done : e.phase = .done) :
    e.Inv ↔ 1 ≤ e.outlen.val ∧ e.f = ⟨ones, 0⟩ ∧
      (∀ i : Fin 128, e.buflen.val ≤ i.val → e.buf[i] = 0) ∧
      e.t.value % 128 = e.buflen.val % 128 := by
  simp only [Engine.Inv, done]

theorem Engine.inv_reset : Engine.reset.Inv := rfl

theorem Engine.inv_openSession (size : Byte) (outlen : Fin 65) (same : outlen.val = size.toNat)
    (low : 1 ≤ size.toNat) : (openSession size outlen).Inv := by
  rw [Engine.inv_iff_of_active rfl]
  refine ⟨?_, rfl, rfl, fun _ => ?_⟩ <;> rw [openSession_outlen, same]
  · exact low
  · rw [BitVec.ofNat_toNat, BitVec.setWidth_eq]

namespace Engine.Inv
variable {e : Engine}

theorem absorb (inv : e.Inv) (active : e.phase = .active) (data : List Byte) :
    (absorb e data).Inv := by
  obtain ⟨size, flags, counter, fresh⟩ := (Engine.inv_iff_of_active active).mp inv
  rw [Engine.inv_iff_of_active (by rw [absorb_phase, active]), absorb_outlen, absorb_f,
    absorb_counter_mod]
  refine ⟨size, flags, counter, fun empty => ?_⟩
  have unchanged := absorb_eq_of_buflen_zero e data empty
  rw [unchanged] at empty ⊢
  exact fresh empty

theorem finalize (inv : e.Inv) (active : e.phase = .active) : (finalize e).Inv := by
  obtain ⟨size, flags, counter, -⟩ := (Engine.inv_iff_of_active active).mp inv
  rw [Engine.inv_iff_of_done rfl, finalize_outlen, finalize_f, flags, finalize_t,
    tAdd_value _ _ (by omega), finalize_buflen]
  refine ⟨size, rfl, fun i beyond => ?_, by omega⟩
  rw [finalize_buf, Fin.getElem_fin, padBuffer_get, if_neg (by omega)]

end Engine.Inv

/-! ### The shapes of a response -/

namespace Response

theorem inTable_ok_empty : InTable ⟨.ok, []⟩ := .inl rfl

theorem inTable_digest (e : Engine) (size : 1 ≤ e.outlen.val) : InTable ⟨.ok, e.digest⟩ := by
  refine .inr (.inr (.inr ?_))
  rw [digest_length]
  omega

theorem inTable_verdict (e : Engine) (tag : List Byte) : InTable ⟨.ok, [verdict e tag]⟩ := by
  rw [verdict_eq]
  split
  · exact .inr (.inr (.inl rfl))
  · exact .inr (.inl rfl)

theorem inTable_errRange (arg : Byte) (bad : ¬ SizeOk arg.toNat) :
    InTable ⟨.errRange, [arg, 0x01, 0x40]⟩ := Exists.intro arg ⟨bad, rfl⟩

theorem inTable_errSeq (phase : Phase) : InTable ⟨.errSeq, [phase.code.setWidth 8]⟩ :=
  Exists.intro phase rfl

theorem inTable_errIllegal (cmd : CmdWord) : InTable (Rejection.illegalCommand cmd).response :=
  Exists.intro cmd rfl

end Response

/-! ### Commands, moves and steps -/

namespace Engine.Inv
variable {e : Engine}

/-- Every decoded command keeps the invariant, and its response has a shape of R84. -/
theorem effect (inv : e.Inv) (i : Instr) : (effect e i).1.Inv ∧ (effect e i).2.InTable := by
  cases i with
  | init arg =>
    by_cases size : 1 ≤ arg.toNat ∧ arg.toNat ≤ 64
    · rw [effect_init_ok e arg size.1 size.2]
      exact ⟨Engine.inv_openSession arg _ rfl size.1, Response.inTable_ok_empty⟩
    · rw [effect_init_range e arg size]
      exact ⟨inv, Response.inTable_errRange arg (by omega)⟩
  | update data =>
    by_cases active : e.phase = .active
    · rw [effect_update_active e data active]
      exact ⟨inv.absorb active data, Response.inTable_ok_empty⟩
    · rw [effect_update_other e data active]
      exact ⟨inv, Response.inTable_errSeq _⟩
  | final =>
    by_cases active : e.phase = .active
    · have closed := inv.finalize active
      obtain ⟨size, -⟩ := (Engine.inv_iff_of_done rfl).mp closed
      rw [effect_final_active e active]
      exact ⟨closed, Response.inTable_digest _ size⟩
    · rw [effect_final_other e active]
      exact ⟨inv, Response.inTable_errSeq _⟩
  | cteq tag =>
    by_cases done : e.phase = .done
    · rw [effect_cteq_done e tag done]
      exact ⟨inv, Response.inTable_verdict e tag⟩
    · rw [effect_cteq_other e tag done]
      exact ⟨inv, Response.inTable_errSeq _⟩

theorem commandEffect (inv : e.Inv) (cmd : CmdWord) (payload : List Byte) :
    (commandEffect e cmd payload).1.Inv ∧ (commandEffect e cmd payload).2.InTable := by
  unfold Machine.commandEffect
  cases decode cmd payload with
  | instr i => exact inv.effect i
  | illegal _ => exact ⟨inv, Response.inTable_errIllegal cmd⟩

theorem moveEffect (inv : e.Inv) (move : HostMove) :
    (moveEffect e move).1.Inv ∧ ∀ r ∈ (moveEffect e move).2, r.InTable := by
  cases move with
  | command cmd payload =>
    obtain ⟨kept, shaped⟩ := inv.commandEffect cmd payload
    refine ⟨kept, fun r answered => ?_⟩
    rwa [← Option.some.inj answered]
  | reset | commandCutByReset _ _ => exact ⟨Engine.inv_reset, by simp [Machine.moveEffect]⟩

end Engine.Inv

theorem State.Inv.runMove {s t : State} (inv : s.Inv) (move : HostMove)
    (answered : runMove move s = .next t) : t.Inv := by
  obtain ⟨registers, recorded⟩ := inv
  obtain ⟨kept, shaped⟩ := registers.moveEffect move
  rw [runMove_effect] at answered
  cases answered
  refine ⟨kept, fun r member => ?_⟩
  obtain new | old := List.mem_append.mp member
  · exact shaped r (Option.mem_toList.mp new)
  · exact recorded r old

/-- Settles O39: a waiting step changes nothing, and every other step is a move of the host. -/
theorem stepKeepsTheInvariant : Obligations.StepKeepsTheInvariant := by
  intro s t inv stepped
  obtain ⟨-, waits⟩ | ⟨move, rest, -, moves⟩ := step_cases s
  · rw [waits] at stepped
    cases stepped
    exact inv
  · rw [moves] at stepped
    have taken : State.Inv { s with host := rest } := inv
    exact taken.runMove move stepped

/-- Settles O38: the registers are at their reset values, and no response is recorded. -/
theorem resetMeetsTheInvariant : Obligations.ResetMeetsTheInvariant := by
  refine ⟨⟨Engine.inv_reset, fun r member => ?_⟩, rfl⟩
  exact absurd member List.not_mem_nil

end Sys2Proof.Machine
end

section
/-! ## The registers refine the session (`10_state.md` R34 to R36, `40_driver.md` R101, R115) -/

namespace Sys2Proof.Machine

/-! ### INIT on a session -/

theorem Session.command_init_ok (σ : Session) (arg : Byte)
    (size : 1 ≤ arg.toNat ∧ arg.toNat ≤ 64) :
    σ.command (.init arg) = (.opened arg.toNat [], ⟨.ok, []⟩) := if_pos size

theorem Session.command_init_range (σ : Session) (arg : Byte)
    (bad : ¬ (1 ≤ arg.toNat ∧ arg.toNat ≤ 64)) :
    σ.command (.init arg) = (σ, ⟨.errRange, [arg, 0x01, 0x40]⟩) := if_neg bad

/-! ### Commands and moves -/

namespace Engine.Holds
variable {e : Engine} {σ : Session}

theorem phase_eq (holds : e.Holds σ) : e.phase = σ.phase := by
  cases σ with
  | absent => exact congrArg Engine.phase holds
  | opened k d => exact HoldsOpen.phase holds
  | finished k d => exact HoldsDone.phase holds

/-- Every decoded command does to the registers and answers what it does to the session. -/
theorem effect (holds : e.Holds σ) (i : Instr) :
    (effect e i).1.Holds (σ.command i).1 ∧ (effect e i).2 = (σ.command i).2 := by
  have phase := holds.phase_eq
  cases i with
  | init arg =>
    by_cases size : 1 ≤ arg.toNat ∧ arg.toNat ≤ 64
    · rw [effect_init_ok e arg size.1 size.2, σ.command_init_ok arg size]
      exact ⟨HoldsOpen.openSession arg _ rfl size.1, rfl⟩
    · rw [effect_init_range e arg size, σ.command_init_range arg size]
      exact ⟨holds, rfl⟩
  | update data =>
    cases σ with
    | opened k d =>
      rw [effect_update_active e data phase]
      exact ⟨HoldsOpen.absorb holds data, rfl⟩
    | absent | finished _ _ =>
      rw [effect_update_other e data (by simp [phase, Session.phase]), phase]
      exact ⟨holds, rfl⟩
  | final =>
    cases σ with
    | opened k d =>
      have closed := HoldsOpen.finalize holds
      rw [effect_final_active e phase, closed.digest_eq]
      exact ⟨closed, rfl⟩
    | absent | finished _ _ =>
      rw [effect_final_other e (by simp [phase, Session.phase]), phase]
      exact ⟨holds, rfl⟩
  | cteq tag =>
    cases σ with
    | finished k d =>
      rw [effect_cteq_done e tag phase, verdict_eq, HoldsDone.digest_eq holds]
      exact ⟨holds, rfl⟩
    | absent | opened _ _ =>
      rw [effect_cteq_other e tag (by simp [phase, Session.phase]), phase]
      exact ⟨holds, rfl⟩

theorem moveEffect (holds : e.Holds σ) (move : HostMove) :
    (moveEffect e move).1.Holds (σ.move move).1 ∧ (moveEffect e move).2 = (σ.move move).2 := by
  cases move with
  | command cmd payload =>
    simp only [Machine.moveEffect, commandEffect, Session.move]
    cases decode cmd payload with
    | instr i =>
      obtain ⟨next, answer⟩ := holds.effect i
      exact ⟨next, congrArg some answer⟩
    | illegal _ => exact ⟨holds, rfl⟩
  | reset | commandCutByReset _ _ => exact ⟨rfl, rfl⟩

end Engine.Holds

/-- Settles O40: the commuting square of a single move, with the host's side of it. -/
theorem registersRefineTheSession : Obligations.RegistersRefineTheSession := by
  intro σ move s holds
  obtain ⟨next, answer⟩ := holds.moveEffect move
  exact ⟨_, runMove_effect move s, rfl, next, by rw [answer]⟩

end Sys2Proof.Machine
end

section
/-! ## The host's moves, one after the other (`20_memory.md` R60) -/

namespace Sys2Proof.Machine

theorem step_of_pending {s : State} {move : HostMove} {rest : List HostMove}
    (pending : s.host = move :: rest) : step s = runMove move { s with host := rest } := by
  simp only [step, takeMove, pending]

/-- Settles O6, by induction on the moves: a step takes the first off the list, and no move reads
or changes what stands behind it. -/
theorem stepsAreTheFoldOfTheMoves : Obligations.StepsAreTheFoldOfTheMoves := by
  intro moves rest s
  induction moves generalizing s with
  | nil => rfl
  | cons move moves ih =>
    have taken : step { s with host := move :: moves ++ rest } =
        runMove move { s with host := moves ++ rest } := step_of_pending rfl
    simp only [List.length_cons, runSteps, runMoves, taken, runMove_effect]
    exact ih ⟨_, [], _⟩

theorem step_of_command {s : State} {cmd : CmdWord} {payload : List Byte} {rest : List HostMove}
    (pending : s.host = .command cmd payload :: rest) :
    step s = runCommand cmd payload { s with host := rest } := step_of_pending pending

theorem runCommand_of_instr {cmd : CmdWord} {payload : List Byte} {i : Instr}
    (decoded : decode cmd payload = .instr i) (s : State) :
    runCommand cmd payload s = exec i s := by
  simp only [runCommand, decoded]

theorem runCommand_of_illegal {cmd : CmdWord} {payload : List Byte} {c : IllegalCause}
    (decoded : decode cmd payload = .illegal c) (s : State) :
    runCommand cmd payload s = raise (.illegalCommand cmd) s := by
  simp only [runCommand, decoded]

/-- The rejection of an illegal word, with its two bytes as shifts of the word (`30_encoding.md`
R84). -/
theorem raise_illegalCommand (cmd : CmdWord) (s : State) :
    raise (.illegalCommand cmd) s = .next { s with
      responses := ⟨.errIllegal, [cmd.setWidth 8, (cmd >>> 8).setWidth 8]⟩ :: s.responses } := by
  have low : argField cmd = cmd.setWidth 8 := rfl
  have high : highByte cmd = (cmd >>> 8).setWidth 8 := rfl
  simp only [raise, respond, Rejection.status, Rejection.info, low, high]

/-- Settles O1: the move taken is the command, and it runs by what its word and payload decode
to. -/
theorem stepRunsTheDecodedCommand : Obligations.StepRunsTheDecodedCommand := by
  intro s cmd payload rest pending
  rw [step_of_command pending]
  constructor
  · intro i decoded
    exact runCommand_of_instr decoded _
  · intro c decoded
    rw [runCommand_of_illegal decoded, raise_illegalCommand]

end Sys2Proof.Machine
end

section
/-! ## Words and byte strings in little-endian order (`20_memory.md` R53, R54) -/

namespace Sys2Proof.Machine

/-! ### Words serialised to bytes -/

theorem le64Bytes_getElem? (w : Word) (i : Nat) (inWord : i < 8) :
    (le64Bytes w)[i]? = some (byteOf w i) := by
  interval_cases i <;> rfl

theorem flatMap_le64Bytes_getElem? (ws : List Word) (i : Nat) :
    (ws.flatMap le64Bytes)[i]? = ws[i / 8]?.map fun w => byteOf w (i % 8) := by
  induction ws generalizing i with
  | nil => rfl
  | cons w ws ih =>
    rw [List.flatMap_cons]
    by_cases first : i < 8
    · rw [List.getElem?_append_left first, le64Bytes_getElem? w i first, Nat.div_eq_of_lt first,
        Nat.mod_eq_of_lt first]
      rfl
    · obtain ⟨j, rfl⟩ := Nat.exists_eq_add_of_le (Nat.le_of_not_lt first)
      have next : (8 + j) / 8 = j / 8 + 1 := by omega
      rw [List.getElem?_append_right (Nat.le_add_right 8 j), le64Bytes_length,
        Nat.add_sub_cancel_left, ih, next, Nat.add_mod_left, List.getElem?_cons_succ]

/-- Settles O19: byte `i` of the words serialised is byte `i % 8` of word `i / 8`, and the cut to
`k` bytes keeps it. -/
theorem digestBytesAreLittleEndian : Obligations.DigestBytesAreLittleEndian := by
  intro h k size
  refine ⟨digestBytes_length h k size, fun i inDigest inWords => ?_⟩
  have word : h.toList[i / 8]? = some h[i / 8] := by simp [inWords]
  rw [digestBytes, List.getElem?_take_of_lt inDigest, flatMap_le64Bytes_getElem?, word]
  rfl

/-! ### Bytes read as a number -/

theorem leNat_testBit (bs : List Byte) (i : Nat) :
    (leNat bs).testBit i = (bs.getD (i / 8) 0).getLsbD (i % 8) := by
  induction bs generalizing i with
  | nil => simp [leNat]
  | cons b bs ih =>
    have firstLast : leNat (b :: bs) = 2 ^ 8 * leNat bs + b.toNat := Nat.add_comm _ _
    rw [firstLast, Nat.testBit_two_pow_mul_add _ b.isLt]
    split
    case isTrue first =>
      rw [Nat.div_eq_of_lt first, Nat.mod_eq_of_lt first, BitVec.testBit_toNat]
      rfl
    case isFalse later =>
      obtain ⟨j, rfl⟩ := Nat.exists_eq_add_of_le (Nat.le_of_not_lt later)
      have next : (8 + j) / 8 = j / 8 + 1 := by omega
      rw [Nat.add_sub_cancel_left, ih, next, Nat.add_mod_left, List.getD_cons_succ]

/-- A bit of `MemRead` is a bit of the byte it was read from (`00_scope.md` R13). -/
theorem memRead_testBit (buf : Vector Byte 128) (a n : Nat) (inBuffer : a + n ≤ 128) (i : Nat)
    (read : i / 8 < n) :
    (memRead buf a n inBuffer).testBit i = (buf[a + i / 8]).getLsbD (i % 8) := by
  have byte : ((buf.toList.drop a).take n).getD (i / 8) 0 = buf[a + i / 8] := by
    simp [List.getD_eq_getElem?_getD, List.getElem?_take_of_lt read, List.getElem?_drop,
      show a + i / 8 < 128 by omega]
  rw [memRead, leNat_testBit, byte]

/-- Settles O33: message word `j` is the 8 bytes read at `8j`, and none of their 64 bits is cut
off. -/
theorem messageWordsAreLittleEndian : Obligations.MessageWordsAreLittleEndian := by
  intro buf j i
  have inWord : i.val / 8 < 8 := by omega
  have loaded : (messageWords buf)[j] = BitVec.ofNat 64 (memRead buf (8 * j.val) 8 (by omega)) := by
    simp [messageWords]
  rw [loaded, BitVec.getLsbD_ofNat, memRead_testBit _ _ _ _ _ inWord, decide_eq_true i.isLt,
    Bool.true_and]

end Sys2Proof.Machine
end

section
/-! ## Every word and payload against the encoder and the opcode map (`30_encoding.md` R71 to R78) -/

namespace Sys2Proof.Machine

/-! ### The fields of a word -/

theorem cmdWord_eq_fields (cmd : CmdWord) :
    cmd = opField cmd ++ rsvField cmd ++ argField cmd := by
  have head : opField cmd ++ rsvField cmd = cmd.extractLsb' 8 8 :=
    BitVec.extractLsb'_append_extractLsb'_eq_extractLsb' rfl
  have whole : cmd.extractLsb' 8 8 ++ argField cmd = cmd.extractLsb' 0 16 :=
    BitVec.extractLsb'_append_extractLsb'_eq_extractLsb' rfl
  rw [head, whole, BitVec.extractLsb'_eq_self]

/-- The high byte of `INIT` leaves `arg` free (`30_encoding.md` R75). -/
theorem encodeWord_init_of_fields {cmd : CmdWord} (reserved : rsvField cmd = 0)
    (op : opField cmd = 1) : encodeWord (.init (argField cmd)) = cmd := by
  have fields := cmdWord_eq_fields cmd
  rw [op, reserved] at fields
  exact fields.symm

/-- A word that has nothing but its `op`. -/
theorem cmdWord_of_op {cmd : CmdWord} {op : BitVec 4} (reserved : rsvField cmd = 0)
    (code : opField cmd = op) (zero : argField cmd = 0) : op ++ 0#4 ++ 0#8 = cmd := by
  have fields := cmdWord_eq_fields cmd
  rw [code, reserved, zero] at fields
  exact fields.symm

/-! ### Decoding is inverse to encoding -/

/-- One case for each way through the tests of R78 that ends in a command, in their order. -/
theorem encode_of_decode {cmd : CmdWord} {payload : List Byte} {i : Instr}
    (decoded : decode cmd payload = .instr i) : encode i = (cmd, payload) := by
  simp only [decode, ne_eq, ite_not] at decoded
  split_ifs at decoded with reserved op empty op zero op zero empty op zero <;> cases decoded
  · exact Prod.ext (encodeWord_init_of_fields reserved op) empty.symm
  · exact Prod.ext (cmdWord_of_op reserved op zero) rfl
  · exact Prod.ext (cmdWord_of_op reserved op zero) empty.symm
  · exact Prod.ext (cmdWord_of_op reserved op zero) rfl

theorem decode_of_encode {cmd : CmdWord} {payload : List Byte} {i : Instr}
    (encoded : encode i = (cmd, payload)) : decode cmd payload = .instr i := by
  have decoded := decode_encode i
  rwa [encoded] at decoded

/-- Settles O7: the fields of a word that decodes leave only the encoding of its command, and every
encoding decodes back. -/
theorem decodeAndEncodeAgree : Obligations.DecodeAndEncodeAgree :=
  fun _ _ _ => ⟨encode_of_decode, decode_of_encode⟩

/-! ### The rows of the opcode map -/

/-- The mask of `INIT` covers `op` and `rsv`. -/
theorem encodeWord_init_of_mask {cmd : CmdWord} (word : cmd &&& 0xFF00 = 0x1000) :
    encodeWord (.init (argField cmd)) = cmd := by
  have reserved : rsvField (cmd &&& 0xFF00) = rsvField cmd := by
    rw [rsvField, BitVec.extractLsb'_and]
    exact BitVec.and_allOnes
  have op : opField (cmd &&& 0xFF00) = opField cmd := by
    rw [opField, BitVec.extractLsb'_and]
    exact BitVec.and_allOnes
  rw [word] at reserved op
  exact encodeWord_init_of_fields reserved.symm op.symm

/-- A mask of sixteen ones leaves one word. -/
theorem eq_of_full_mask {cmd pattern : CmdWord} (word : cmd &&& 0xFFFF = pattern) :
    pattern = cmd := by
  rw [← word]
  exact BitVec.and_allOnes

/-- Whatever selects a row is the encoding of a command. -/
theorem exists_encode_of_selects {r : TableRow} {cmd : CmdWord} {payload : List Byte}
    (row : r ∈ opcodeTable) (selected : r.selects cmd payload = true) :
    ∃ i, encode i = (cmd, payload) := by
  simp only [TableRow.selects, Bool.and_eq_true, decide_eq_true_eq, Bool.or_eq_true,
    List.isEmpty_iff] at selected
  obtain ⟨word, rule⟩ := selected
  simp only [opcodeTable, List.mem_cons, List.not_mem_nil, or_false] at row
  obtain rfl | rfl | rfl | rfl := row
  · exact ⟨.init (argField cmd),
      Prod.ext (encodeWord_init_of_mask word) (rule.resolve_left Bool.false_ne_true).symm⟩
  · exact ⟨.update payload, Prod.ext (eq_of_full_mask word) rfl⟩
  · exact ⟨.final, Prod.ext (eq_of_full_mask word) (rule.resolve_left Bool.false_ne_true).symm⟩
  · exact ⟨.cteq payload, Prod.ext (eq_of_full_mask word) rfl⟩

theorem rows_of_encode (i : Instr) : Laws.RowMatch.Statement i := by
  cases i with
  | init arg => exact Laws.RowMatch.init arg
  | update data => exact Laws.RowMatch.update data
  | final => exact Laws.RowMatch.final
  | cteq tag => exact Laws.RowMatch.cteq tag

theorem rows_of_illegal {cmd : CmdWord} {payload : List Byte} {c : IllegalCause}
    (illegal : decode cmd payload = .illegal c) :
    (opcodeTable.filter fun r => r.selects cmd payload) = [] := by
  refine List.filter_eq_nil_iff.mpr fun r row selected => ?_
  obtain ⟨i, encoded⟩ := exists_encode_of_selects row selected
  rw [decode_of_encode encoded] at illegal
  cases illegal

/-- Settles O8: a command decoded has the rows of its encoding, and a word that selects a row is
not illegal. -/
theorem decoderFollowsTheOpcodeMap : Obligations.DecoderFollowsTheOpcodeMap := by
  intro cmd payload
  cases decoded : decode cmd payload with
  | instr i =>
    have rows := rows_of_encode i
    rwa [Laws.RowMatch.Statement, encode_of_decode decoded] at rows
  | illegal c => rw [rows_of_illegal decoded, List.map_nil]

/-- Settles O10: the legal words are the encodings of their commands. -/
theorem writtenWordsDecode : Obligations.WrittenWordsDecode :=
  ⟨decode_encode (.init 64), decode_encode (.init 255), decode_encode (.update _),
    decode_encode .final, decode_encode (.cteq _), by decide⟩

end Sys2Proof.Machine
end

section
/-! ## The commands of the driver, one at a time (`40_driver.md` R101 to R104, R110 to R114) -/

namespace Sys2Proof.Machine

/-! ### The counter -/

/-- Settles O37: adding 0 leaves a value that is below 2^128 already. -/
theorem counterAddsWithCarry : Obligations.CounterAddsWithCarry := by
  intro t c small
  refine ⟨tAdd_value t c (by omega), WordPair.ext_value ?_⟩
  rw [tAdd_value t 0 (by omega), Nat.add_zero, Nat.mod_eq_of_lt t.value_lt]

/-! ### The accepted commands -/

theorem exec_init_ok (size : Byte) (s : State) (low : 1 ≤ size.toNat) (high : size.toNat ≤ 64) :
    exec (.init size) s = .next ⟨openSession size (Fin.ofNat 65 size.toNat), s.host,
      ⟨.ok, []⟩ :: s.responses⟩ := by
  have outlen : (⟨size.toNat, by omega⟩ : Fin 65) = Fin.ofNat 65 size.toNat :=
    Fin.ext (Nat.mod_eq_of_lt (by omega)).symm
  rw [exec_effect, effect_init_ok _ size low high, outlen]

theorem exec_update_active (data : List Byte) (s : State) (active : s.engine.phase = .active) :
    exec (.update data) s = .next ⟨absorb s.engine data, s.host, ⟨.ok, []⟩ :: s.responses⟩ := by
  rw [exec_effect, effect_update_active _ data active]

theorem exec_final_active (s : State) (active : s.engine.phase = .active) :
    exec .final s = .next ⟨finalize s.engine, s.host,
      ⟨.ok, (finalize s.engine).digest⟩ :: s.responses⟩ := by
  rw [exec_effect, effect_final_active _ active]

/-! ### The registers after INIT and FINAL -/

theorem initialH_get_zero (size : Byte) :
    (initialH size)[0] = iv[0] ^^^ (0x0000000001010000 + size.setWidth 64) := by
  simp [initialH, parameterWord_zero]

theorem initialH_get_pos (size : Byte) (i : Fin 8) (pos : i ≠ 0) : (initialH size)[i] = iv[i] := by
  have nonzero : i.val ≠ 0 := fun zero => pos (Fin.ext zero)
  simp [initialH, parameterWord_pos size i.val nonzero i.isLt]

/-- Settles O11: the registers are those of `openSession`, and only the first parameter word is not
zero. -/
theorem initOpensASession : Obligations.InitOpensASession := by
  intro arg s low high
  exact ⟨_, exec_init_ok arg s low high, initialH_get_zero arg, initialH_get_pos arg, rfl, rfl,
    by simp, rfl, Nat.mod_eq_of_lt (by omega), rfl, rfl, rfl⟩

/-- Settles O17: the registers are those of `finalize`. -/
theorem finalClosesTheSession : Obligations.FinalClosesTheSession := by
  intro s active
  exact ⟨_, exec_final_active s active, fun a => padBuffer_get _ _ a.val a.isLt,
    tAdd_value _ _ (by omega), rfl, rfl, rfl, rfl, rfl, rfl, rfl⟩

/-! ### The table of phases -/

/-- Settles O24, row by row: each command with its accepted phases and the others. -/
theorem driverStateMachine : Obligations.DriverStateMachine := by
  intro i s
  refine ⟨_, _, exec_effect i s, rfl, ?_⟩
  cases i with
  | init arg =>
    by_cases size : 1 ≤ arg.toNat ∧ arg.toNat ≤ 64
    · simp [effect_init_ok _ arg size.1 size.2, size]
    · simp only [effect_init_range _ arg size, if_neg size]
  | update data =>
    by_cases active : s.engine.phase = .active
    · simp [effect_update_active _ data active, active]
    · rw [effect_update_other _ data active]
      cases phase : s.engine.phase with
      | active => exact absurd phase active
      | idle | done => rfl
  | final =>
    by_cases active : s.engine.phase = .active
    · simp [effect_final_active _ active, active]
    · rw [effect_final_other _ active]
      cases phase : s.engine.phase with
      | active => exact absurd phase active
      | idle | done => rfl
  | cteq tag =>
    by_cases done : s.engine.phase = .done
    · simp [effect_cteq_done _ tag done, done]
    · rw [effect_cteq_other _ tag done]
      cases phase : s.engine.phase with
      | done => exact absurd phase done
      | idle | active => rfl

/-- Settles O30: a move reads the registers alone, and is answered at most once. -/
theorem outcomeDependsOnRegistersAndCommandOnly :
    Obligations.OutcomeDependsOnRegistersAndCommandOnly := by
  intro move s₁ s₂ same
  refine ⟨_, _, (moveEffect s₁.engine move).2.toList, runMove_effect move s₁, runMove_effect move s₂,
    ?_, rfl, ?_, ?_⟩
  · rw [same]
  · rw [same]
  · exact Option.length_toList_le

/-! ### The length of a digest -/

/-- `INIT` sent by a host at an encodable size that is out of range (`60_exceptions.md` R181). -/
theorem transact_init_range (k : Int) (low : 0 ≤ k) (high : k ≤ 255) (bad : k < 1 ∨ 64 < k)
    (s : State) :
    ∃ t, transact (0x1000 + BitVec.ofInt 16 k) [] s =
        some (⟨.errRange, [BitVec.ofNat 8 k.toNat, 0x01, 0x40]⟩, t) ∧ t.engine = s.engine := by
  have size : (BitVec.ofNat 8 k.toNat).toNat = k.toNat := by simp; omega
  have answer := transact_encode (.init (BitVec.ofNat 8 k.toNat)) s
  rw [effect_init_range _ _ (by omega)] at answer
  rw [encodeWord_init_ofInt k low high]
  exact ⟨_, answer, rfl⟩

/-- `HASH` at a size out of range, whether the word of `INIT` can carry it or not (R171). -/
theorem hashMessage_outOfRange (k : Int) (chunks : List (List Byte)) (s : State)
    (bad : k < 1 ∨ 64 < k) :
    ∃ t, hashMessage k chunks s = some (.outOfRange k 1 64, t) ∧ t.engine = s.engine := by
  by_cases unencodable : k < 0 ∨ 255 < k
  · exact ⟨s, if_pos unencodable, rfl⟩
  · obtain ⟨t, rejected, same⟩ := transact_init_range k (by omega) (by omega) bad s
    have value : (((BitVec.ofNat 8 k.toNat).toNat : Nat) : Int) = k := by simp; omega
    refine ⟨t, ?_, same⟩
    simp only [hashMessage, if_neg unencodable, rejected, if_true, rangeError, List.getD_cons_zero,
      List.getD_cons_succ, value]
    rfl

/-- Settles O18: the digest is cut to `outlen`, which `INIT` has set to the size asked for. -/
theorem digestHasTheSessionsLength : Obligations.DigestHasTheSessionsLength := by
  refine ⟨?_, ?_, hashMessage_outOfRange, ?_⟩
  · intro s active
    exact ⟨_, _, exec_final_active s active, rfl, digest_length _⟩
  · intro k chunks s low high
    obtain ⟨t, hashed, -⟩ := hashMessage_digest k chunks s low high
    refine ⟨_, t, hashed, ?_⟩
    rw [blake2bCore, digestBytes_length _ _ (by omega)]
    omega
  · intro arg s bad
    have rejected := exec_effect (.init arg) s
    rw [effect_init_range _ arg (by omega)] at rejected
    exact ⟨_, _, rejected, rfl, rfl⟩

end Sys2Proof.Machine
end

section
/-! ## UPDATE in block form (`40_driver.md` R105 to R107, R112)

Both forms of `UPDATE` keep a list of pending bytes at the front of the buffer; `withPending` puts it
there, so that a turn of either loop is a step from one such state to another. -/

namespace Sys2Proof.Machine

/-! ### Pending bytes at the front of the buffer -/

/-- The engine with these pending bytes: the last assignments of R105. -/
def withPending (e : Engine) (p : List Byte) : Engine :=
  { e with buf := storeFront e.buf p, buflen := Fin.ofNat 129 p.length }

section
variable (e : Engine) (p : List Byte)

@[simp] theorem withPending_h : (withPending e p).h = e.h := by rw [withPending]
@[simp] theorem withPending_t : (withPending e p).t = e.t := by rw [withPending]
@[simp] theorem withPending_f : (withPending e p).f = e.f := by rw [withPending]
@[simp] theorem withPending_buf : (withPending e p).buf = storeFront e.buf p := rfl
@[simp] theorem withPending_outlen : (withPending e p).outlen = e.outlen := by rw [withPending]
@[simp] theorem withPending_phase : (withPending e p).phase = e.phase := by rw [withPending]

end

theorem withPending_buflen (e : Engine) (p : List Byte) (fits : p.length ≤ 128) :
    (withPending e p).buflen.val = p.length :=
  Nat.mod_eq_of_lt (by omega)

@[simp] theorem storeFront_get (buf : Vector Byte 128) (p : List Byte) (i : Nat) (hi : i < 128) :
    (storeFront buf p)[i] = p.getD i buf[i] := by
  simp [storeFront]

/-- The bytes that wait for their block, as R105 collects them first. -/
def Engine.pendingBytes (e : Engine) : List Byte := e.buf.toList.take e.buflen.val

theorem Engine.pendingBytes_length (e : Engine) : e.pendingBytes.length = e.buflen.val := by
  rw [Engine.pendingBytes, List.length_take, Vector.length_toList]
  omega

theorem Engine.pendingBytes_getD (e : Engine) (i : Nat) (hi : i < 128) (x : Byte) :
    e.pendingBytes.getD i x = if i < e.buflen.val then e.buf[i] else x := by
  by_cases pending : i < e.buflen.val <;>
    simp [Engine.pendingBytes, List.getD_eq_getElem?_getD, pending, hi]

theorem withPending_pendingBytes (e : Engine) : withPending e e.pendingBytes = e := by
  have length := e.pendingBytes_length
  refine Engine.ext_items (by simp) (by simp) (by simp) (fun i hi => ?_) ?_ (by simp) (by simp)
  · rw [withPending_buf, storeFront_get, Engine.pendingBytes_getD _ _ hi, ite_self]
  · rw [withPending_buflen _ _ (by omega), length]

theorem storeFront_nil (buf : Vector Byte 128) : storeFront buf [] = buf := by
  ext i hi : 1
  rw [storeFront_get, List.getD_nil]

/-! ### One turn of the byte-serial loop -/

theorem getD_append_singleton (p : List Byte) (b x : Byte) (i : Nat) :
    (p ++ [b]).getD i x = if i = p.length then b else p.getD i x := by
  grind

theorem appendByte_withPending {g e : Engine} {p : List Byte} (holds : g = withPending e p)
    (fits : p.length < 128) (room : g.buflen.val < 128) (b : Byte) :
    appendByte g room b = withPending e (p ++ [b]) := by
  subst holds
  have buflen := withPending_buflen e p (by omega)
  have grown : (p ++ [b]).length = p.length + 1 := List.length_append
  refine Engine.ext_items (by simp) (by simp) (by simp) (fun i hi => ?_) ?_ (by simp) (by simp)
  · simp only [appendByte_buf_get, buflen, withPending_buf, storeFront_get, getD_append_singleton]
  · rw [appendByte_buflen, buflen, withPending_buflen _ _ (by omega), grown]

/-- A full block of pending bytes, compressed as R105 does. -/
def compressPending (e : Engine) (p : List Byte) : Engine :=
  compress { e with t := tAdd e.t 128, buf := storeFront e.buf p }

theorem flushBlock_withPending (e : Engine) (p : List Byte) :
    flushBlock (withPending e p) = withPending (compressPending e p) [] := by
  rw [withPending, withPending, storeFront_nil]
  rfl

/-- A byte that fits is one more pending byte. -/
theorem absorbByte_withPending (e : Engine) (p : List Byte) (b : Byte) (fits : p.length < 128) :
    absorbByte (withPending e p) b = withPending e (p ++ [b]) := by
  have buflen := withPending_buflen e p (by omega)
  obtain ⟨room, stored⟩ | ⟨full, -⟩ := absorbByte_cases (withPending e p) b
  · rw [stored, appendByte_withPending rfl fits]
  · omega

/-- A byte that does not fit has the full block compressed and is the first of the next. -/
theorem absorbByte_withPending_full (e : Engine) (p : List Byte) (b : Byte)
    (full : p.length = 128) :
    absorbByte (withPending e p) b = withPending (compressPending e p) [b] := by
  have buflen := withPending_buflen e p (by omega)
  obtain ⟨room, -⟩ | ⟨-, flushed⟩ := absorbByte_cases (withPending e p) b
  · omega
  · rw [flushed, appendByte_withPending (flushBlock_withPending e p) (by simp), List.nil_append]

/-! ### The loops -/

/-- The first row of R107: without a full buffer and one more byte, nothing is compressed. -/
theorem absorb_withPending (e : Engine) (p data : List Byte)
    (fits : p.length + data.length ≤ 128) :
    absorb (withPending e p) data = withPending e (p ++ data) := by
  induction data generalizing p with
  | nil => rw [absorb_nil, List.append_nil]
  | cons b bs ih =>
    rw [List.length_cons] at fits
    rw [absorb_cons, absorbByte_withPending e p b (by omega), ih _ (by simp; omega),
      List.append_assoc, List.singleton_append]

/-- The loop of R105 and the assignments after it. -/
def runBlocks (fuel : Nat) (e : Engine) (p : List Byte) : Engine :=
  withPending (blockLoop fuel e p).1 (blockLoop fuel e p).2

theorem absorbBlocks_eq_runBlocks (e : Engine) (data : List Byte) :
    absorbBlocks e data =
      runBlocks (e.pendingBytes ++ data).length e (e.pendingBytes ++ data) := rfl

theorem runBlocks_of_fits (fuel : Nat) (e : Engine) (p : List Byte) (fits : p.length ≤ 128) :
    runBlocks fuel e p = withPending e p := by
  cases fuel with
  | zero => rfl
  | succ fuel => rw [runBlocks, blockLoop, if_neg (by omega)]

theorem runBlocks_of_full (fuel : Nat) (e : Engine) (p : List Byte) (b : Byte) (bs : List Byte)
    (full : p.length = 128) :
    runBlocks (fuel + 1) e (p ++ b :: bs) = runBlocks fuel (compressPending e p) (b :: bs) := by
  have waiting : 129 ≤ (p ++ b :: bs).length := by
    rw [List.length_append, List.length_cons]
    omega
  rw [runBlocks, blockLoop, if_pos waiting, List.take_left' full, List.drop_left' full]
  rfl

/-- The two forms agree, by induction on the bytes: a byte that fits makes no turn of the block loop,
one that does not makes exactly one. -/
theorem absorb_withPending_eq_runBlocks (fuel : Nat) (e : Engine) (p data : List Byte)
    (fits : p.length ≤ 128) (enough : (p ++ data).length ≤ fuel) :
    absorb (withPending e p) data = runBlocks fuel e (p ++ data) := by
  induction data generalizing fuel e p with
  | nil => rw [absorb_nil, List.append_nil, runBlocks_of_fits fuel e p fits]
  | cons b bs ih =>
    rw [absorb_cons]
    simp only [List.length_append, List.length_cons] at enough
    by_cases room : p.length < 128
    · rw [absorbByte_withPending e p b room, ih fuel e (p ++ [b]) (by simp; omega) (by simp; omega),
        List.append_assoc, List.singleton_append]
    · have full : p.length = 128 := by omega
      obtain ⟨fuel, rfl⟩ := Nat.exists_eq_add_of_le' (show 1 ≤ fuel by omega)
      rw [absorbByte_withPending_full e p b full, ih fuel _ [b] (by simp) (by simp; omega),
        runBlocks_of_full fuel e p b bs full, List.singleton_append]

theorem absorb_eq_absorbBlocks (e : Engine) (data : List Byte) :
    absorb e data = absorbBlocks e data := by
  have fits : e.pendingBytes.length ≤ 128 := by rw [e.pendingBytes_length]; omega
  have agree := absorb_withPending_eq_runBlocks _ e _ data fits le_rfl
  rwa [withPending_pendingBytes, ← absorbBlocks_eq_runBlocks] at agree

/-! ### The statements about UPDATE -/

/-- Settles O14: in phase `ACTIVE` the two forms agree, and elsewhere the command is rejected. -/
theorem updateIsTheBlockForm : Obligations.UpdateIsTheBlockForm := by
  intro data s
  constructor
  · intro active
    rw [exec_update_active data s active, absorb_eq_absorbBlocks]
  · intro other
    rw [exec_effect, effect_update_other _ data other]

/-- Settles O15: the payload goes behind the bytes that are pending already. -/
theorem updateWithinTheBufferOnlyAppends : Obligations.UpdateWithinTheBufferOnlyAppends := by
  intro data s active fits
  have length := s.engine.pendingBytes_length
  have appended := absorb_withPending s.engine s.engine.pendingBytes data (by omega)
  rw [withPending_pendingBytes] at appended
  have accepted := exec_update_active data s active
  rw [appended] at accepted
  refine ⟨_, accepted, withPending_h _ _, withPending_t _ _, withPending_f _ _,
    withPending_outlen _ _, (withPending_phase _ _).trans active, ?_, fun a => ?_, rfl, rfl⟩
  · rw [withPending_buflen _ _ (by simp; omega), List.length_append, length]
  · rw [withPending_buf, Fin.getElem_fin, storeFront_get, Fin.getElem_fin]
    by_cases pending : a.val < s.engine.buflen.val
    · rw [List.getD_append _ _ _ _ (by omega), Engine.pendingBytes_getD _ _ a.isLt, ite_self,
        if_neg (by omega)]
    · rw [List.getD_append_right _ _ _ _ (by omega), length]
      by_cases new : a.val < s.engine.buflen.val + data.length
      · have inPayload : a.val - s.engine.buflen.val < data.length := by omega
        rw [if_pos ⟨by omega, new⟩, List.getD_eq_getElem _ _ inPayload,
          List.getD_eq_getElem _ _ inPayload]
      · rw [if_neg (by omega), List.getD_eq_default _ _ (by omega)]

/-- Settles O43: the loop of `UPDATE` takes the bytes in order and keeps nothing besides the
registers. -/
theorem updatesConcatenate : Obligations.UpdatesConcatenate := by
  intro a b s active
  have whole := exec_update_active (a ++ b) s active
  rw [absorb_append] at whole
  exact ⟨_, _, _, exec_update_active a s active,
    exec_update_active b _ ((absorb_phase _ a).trans active), whole, rfl⟩

end Sys2Proof.Machine
end

section
/-! ## The calls of COMPRESS that UPDATE makes (`40_driver.md` R103, R107, R108) -/

namespace Sys2Proof.Machine

/-! ### The counter over several blocks -/

/-- The counter after `n` more blocks. -/
def addBlocks (t : WordPair) : (n : Nat) → WordPair
  | 0 => t
  | n + 1 => addBlocks (tAdd t 128) n

theorem addBlocks_value (t : WordPair) (n : Nat) :
    (addBlocks t n).value = (t.value + 128 * n) % 2 ^ 128 := by
  induction n generalizing t with
  | zero => exact (Nat.mod_eq_of_lt t.value_lt).symm
  | succ n ih =>
    rw [addBlocks, ih, tAdd_value _ _ (by omega)]
    omega

/-- The calls for `n` blocks that are not the last, the counter advanced before each. -/
def blockCalls (t f : WordPair) (n : Nat) : List CompressCall :=
  (List.range n).map fun i => ⟨addBlocks t (i + 1), f⟩

theorem blockCalls_succ (t f : WordPair) (n : Nat) :
    blockCalls t f (n + 1) = ⟨tAdd t 128, f⟩ :: blockCalls (tAdd t 128) f n := by
  simp [blockCalls, List.range_succ_eq_map, Function.comp_def, addBlocks]

theorem blockCalls_length (t f : WordPair) (n : Nat) : (blockCalls t f n).length = n := by
  simp [blockCalls]

/-! ### The calls of the loop -/

/-- The calls of `COMPRESS` that the bytes of `data` cause. -/
def absorbCalls (e : Engine) : (data : List Byte) → List CompressCall
  | [] => []
  | b :: bs =>
    (if e.buflen.val = 128 then [⟨tAdd e.t 128, e.f⟩] else []) ++ absorbCalls (absorbByte e b) bs

theorem absorbCalls_append (e : Engine) (a b : List Byte) :
    absorbCalls e (a ++ b) = absorbCalls e a ++ absorbCalls (absorb e a) b := by
  induction a generalizing e with
  | nil => rfl
  | cons x xs ih => simp [absorbCalls, ih]

theorem tracedByte_eq (p : Traced) (b : Byte) :
    tracedByte p b = ⟨absorbByte p.engine b, p.calls ++ absorbCalls p.engine [b]⟩ := by
  unfold tracedByte absorbByte absorbCalls
  split <;> simp [absorbCalls] <;> rfl

/-- The instrumented loop writes the registers of the machine's. -/
theorem foldl_tracedByte (p : Traced) (data : List Byte) :
    data.foldl tracedByte p = ⟨absorb p.engine data, p.calls ++ absorbCalls p.engine data⟩ := by
  induction data generalizing p with
  | nil => simp [absorbCalls]
  | cons b bs ih => simp [ih, tracedByte_eq, absorbCalls]

/-! ### How many calls -/

theorem pendingCount_of_le (n : Nat) (oneBlock : n ≤ 128) : pendingCount n = n := by
  unfold pendingCount
  split <;> omega

theorem pendingCount_add_block (n : Nat) (more : n ≠ 0) : pendingCount (128 + n) = pendingCount n := by
  unfold pendingCount
  rw [if_neg (by omega), if_neg more]
  omega

theorem absorbByte_t (e : Engine) (b : Byte) :
    (absorbByte e b).t = if e.buflen.val = 128 then tAdd e.t 128 else e.t := by
  unfold absorbByte
  split <;> rfl

/-- The general row of R107. -/
theorem absorb_blocks (e : Engine) (data : List Byte) :
    (absorb e data).buflen.val = pendingCount (e.buflen.val + data.length) ∧
    (absorb e data).t = addBlocks e.t ((e.buflen.val + data.length - 1) / 128) ∧
    absorbCalls e data = blockCalls e.t e.f ((e.buflen.val + data.length - 1) / 128) := by
  induction data generalizing e with
  | nil =>
    have none : (e.buflen.val + 0 - 1) / 128 = 0 := by omega
    rw [List.length_nil, none, Nat.add_zero, pendingCount_of_le _ (by omega)]
    exact ⟨rfl, rfl, rfl⟩
  | cons b bs ih =>
    have next := ih (absorbByte e b)
    rw [absorbByte_buflen, absorbByte_t, absorbByte_f] at next
    rw [absorb_cons, absorbCalls, List.length_cons]
    by_cases full : e.buflen.val = 128
    · have blocks : (e.buflen.val + (bs.length + 1) - 1) / 128 = (1 + bs.length - 1) / 128 + 1 := by
        omega
      have pending : pendingCount (e.buflen.val + (bs.length + 1)) = pendingCount (1 + bs.length) := by
        rw [full, Nat.add_comm bs.length, pendingCount_add_block _ (by omega)]
      simp only [if_pos full] at next ⊢
      rw [blocks, pending, blockCalls_succ, addBlocks]
      simpa using next
    · simp only [if_neg full, Nat.add_assoc, Nat.add_comm 1] at next ⊢
      simpa using next

/-! ### The instrumented commands -/

theorem tracedExec_update (data : List Byte) (s : State) (active : s.engine.phase = .active) :
    tracedExec (.update data) s = (exec (.update data) s, ⟨absorbCalls s.engine data, []⟩) := by
  simp [tracedExec, exec, execUpdate, active, foldl_tracedByte]

/-- Settles O16: the calls of the loop are one for each full block but the last. -/
theorem updateCountsCompressions : Obligations.UpdateCountsCompressions := by
  intro data s active
  obtain ⟨buflen, counter, calls⟩ := absorb_blocks s.engine data
  have blocks : (s.engine.buflen.val + data.length + 127) / 128 - 1 =
      (s.engine.buflen.val + data.length - 1) / 128 := by omega
  have traced := tracedExec_update data s active
  have accepted := exec_update_active data s active
  rw [accepted] at traced
  refine ⟨_, _, accepted, traced, absorb_f _ _, absorb_outlen _ _, (absorb_phase _ _).trans active,
    rfl, rfl, buflen, ?_, ?_⟩
  · rw [blocks, calls, blockCalls_length]
  · rw [blocks, counter, addBlocks_value]

end Sys2Proof.Machine
end

section
/-! ## Whole sessions (`40_driver.md` R108, R112, R115) -/

namespace Sys2Proof.Machine

/-! ### Opened and fed -/

/-- The registers that `INIT` and a message leave, in whatever `UPDATE`s it came. -/
def sessionEngine (size : Byte) (message : List Byte) : Engine :=
  absorb (openSession size (Fin.ofNat 65 size.toNat)) message

/-- The machine after `INIT` and one `UPDATE` for each chunk. -/
def fedState (size : Byte) (chunks : List (List Byte)) (s : State) : State where
  engine := sessionEngine size chunks.flatten
  host := s.host
  responses := List.replicate (chunks.length + 1) ⟨.ok, []⟩ ++ s.responses

theorem runMoves_present {i : Instr} {s t : State} (answered : exec i s = .next t)
    (rest : List HostMove) : runMoves (present i :: rest) s = runMoves rest t := by
  have move : runMove (present i) s = .next t :=
    (runCommand_of_instr (decode_encode i) s).trans answered
  simp only [runMoves, move]

theorem replicate_append_cons (n : Nat) (r : Response) (rs : List Response) :
    List.replicate n r ++ r :: rs = List.replicate (n + 1) r ++ rs := by
  rw [List.replicate_succ', List.append_assoc, List.singleton_append]

theorem runMoves_updates (chunks : List (List Byte)) (rest : List HostMove) (s : State)
    (active : s.engine.phase = .active) :
    runMoves ((chunks.map Instr.update).map present ++ rest) s =
      runMoves rest ⟨absorb s.engine chunks.flatten, s.host,
        List.replicate chunks.length ⟨.ok, []⟩ ++ s.responses⟩ := by
  induction chunks generalizing s with
  | nil => rfl
  | cons chunk chunks ih =>
    rw [List.map_cons, List.map_cons, List.cons_append,
      runMoves_present (exec_update_active chunk s active),
      ih _ ((absorb_phase _ _).trans active), replicate_append_cons, List.flatten_cons,
      absorb_append, List.length_cons]

section
variable (size : Byte) (chunks : List (List Byte)) (s : State)

theorem sessionEngine_phase (message : List Byte) :
    (sessionEngine size message).phase = .active := absorb_phase _ _

theorem sessionEngine_holdsOpen (message : List Byte) (low : 1 ≤ size.toNat)
    (high : size.toNat ≤ 64) :
    (sessionEngine size message).HoldsOpen size.toNat message :=
  (Engine.HoldsOpen.openSession size _ (Nat.mod_eq_of_lt (by omega)) low).absorb message

variable (low : 1 ≤ size.toNat) (high : size.toNat ≤ 64)
include low high

theorem runMoves_feed (rest : List HostMove) :
    runMoves ((feedCommands size chunks).map present ++ rest) s =
      runMoves rest (fedState size chunks s) := by
  rw [feedCommands, List.map_cons, List.cons_append,
    runMoves_present (exec_init_ok size s low high), runMoves_updates chunks rest _ rfl,
    replicate_append_cons]
  rfl

/-- A whole session, as one next state: its registers depend on the message and not on its cut. -/
theorem runMoves_session :
    runMoves (sessionMoves size chunks) s =
      .next ⟨finalize (sessionEngine size chunks.flatten), s.host,
        ⟨.ok, (finalize (sessionEngine size chunks.flatten)).digest⟩ ::
          (fedState size chunks s).responses⟩ := by
  rw [sessionMoves, runMoves_feed size chunks s low high,
    runMoves_present (exec_final_active _ (sessionEngine_phase size chunks.flatten))]
  rfl

end

/-- Settles O41: the finished registers hold the message, so their digest is `blake2b_core`. The
length of the message is not needed, since `blake2b_core` wraps where the counter does. -/
theorem sessionComputesBlake2bCore : Obligations.SessionComputesBlake2bCore := by
  intro size chunks s low high _
  have done := (sessionEngine_holdsOpen size chunks.flatten low high).finalize
  refine ⟨_, runMoves_session size chunks s low high, done, ?_⟩
  rw [done.digest_eq]
  rfl

/-- Settles O42: the registers at the end are a function of the size and the message. -/
theorem chunkingDoesNotMatter : Obligations.ChunkingDoesNotMatter := by
  intro size chunks₁ chunks₂ s low high same
  refine ⟨_, _, _, runMoves_session size chunks₁ s low high, runMoves_session size chunks₂ s low high,
    ?_, rfl, ?_⟩ <;> rw [same]
  rfl

/-! ### The work of a session -/

theorem runTraced_cons {i : Instr} {s t : State} {w : Trace}
    (answered : tracedExec i s = (.next t, w)) (rest : List Instr) :
    runTraced (i :: rest) s = ((runTraced rest t).1, w.append (runTraced rest t).2) := by
  simp only [runTraced, answered]

theorem tracedExec_init (size : Byte) (s : State) (accepted : SizeOk size.toNat) :
    tracedExec (.init size) s = (exec (.init size) s, ⟨[], []⟩) := by
  simp only [tracedExec, exec, execInit, dif_pos accepted]
  rfl

theorem tracedExec_final (s : State) (active : s.engine.phase = .active) :
    tracedExec .final s =
      (exec .final s, ⟨[⟨(finalize s.engine).t, (finalize s.engine).f⟩], []⟩) := by
  simp only [tracedExec, exec, execFinal, active, ne_eq, not_true, if_false]
  rfl

theorem runTraced_updates (chunks : List (List Byte)) (s : State)
    (active : s.engine.phase = .active) :
    runTraced (chunks.map .update) s =
      (runMoves ((chunks.map Instr.update).map present) s,
        ⟨absorbCalls s.engine chunks.flatten, []⟩) := by
  induction chunks generalizing s with
  | nil => rfl
  | cons chunk chunks ih =>
    have accepted := exec_update_active chunk s active
    have traced := tracedExec_update chunk s active
    rw [accepted] at traced
    rw [List.map_cons, List.map_cons, runMoves_present accepted, runTraced_cons traced,
      ih _ ((absorb_phase _ _).trans active), List.flatten_cons, absorbCalls_append]
    rfl

theorem runTraced_feed (size : Byte) (chunks : List (List Byte)) (s : State)
    (low : 1 ≤ size.toNat) (high : size.toNat ≤ 64) :
    runTraced (feedCommands size chunks) s =
      (runMoves ((feedCommands size chunks).map present) s,
        ⟨blockCalls ⟨0, 0⟩ ⟨0, 0⟩ ((chunks.flatten.length - 1) / 128), []⟩) := by
  have accepted := exec_init_ok size s low high
  have traced := tracedExec_init size s (by omega)
  rw [accepted] at traced
  obtain ⟨-, -, calls⟩ := absorb_blocks (openSession size (Fin.ofNat 65 size.toNat)) chunks.flatten
  rw [openSession_buflen, Fin.val_zero, Nat.zero_add] at calls
  rw [feedCommands, List.map_cons, runMoves_present accepted, runTraced_cons traced,
    runTraced_updates _ _ rfl, calls]
  rfl

/-- The counters of the calls for the first blocks of a message. -/
theorem blockCalls_values (n : Nat) (f : WordPair) (short : 128 * n < 2 ^ 128) :
    (blockCalls ⟨0, 0⟩ f n).map (fun c => c.t.value) = (List.range n).map fun i => 128 * (i + 1) := by
  rw [blockCalls, List.map_map]
  refine List.map_congr_left fun i member => ?_
  have zero : (⟨0, 0⟩ : WordPair).value = 0 := rfl
  have before := List.mem_range.mp member
  rw [Function.comp_apply, addBlocks_value, zero, Nat.zero_add, Nat.mod_eq_of_lt (by omega)]

theorem blockCalls_flags {t f : WordPair} {n : Nat} {c : CompressCall}
    (called : c ∈ blockCalls t f n) : c.f = f := by
  obtain ⟨i, -, rfl⟩ := List.mem_map.mp called
  rfl

theorem pendingCount_eq_zero_iff (n : Nat) : pendingCount n = 0 ↔ n = 0 := by
  unfold pendingCount
  split <;> omega

/-- Settles O44: the calls of the `UPDATE`s are those of all blocks but the last, and `FINAL` makes
the one for the last. -/
theorem lastBlockIsDeferred : Obligations.LastBlockIsDeferred := by
  intro size chunks s low high short
  have held : (fedState size chunks s).engine.HoldsOpen size.toNat chunks.flatten :=
    sessionEngine_holdsOpen size chunks.flatten low high
  have blocks : (chunks.flatten.length + 127) / 128 - 1 = (chunks.flatten.length - 1) / 128 := by
    omega
  have fed := runMoves_feed size chunks s low high []
  rw [List.append_nil] at fed
  have work := runTraced_feed size chunks s low high
  rw [fed] at work
  have closed := exec_final_active (fedState size chunks s) held.phase
  have closing := tracedExec_final (fedState size chunks s) held.phase
  rw [closed, finalize_f, held.flags] at closing
  refine ⟨_, _, _, fed, work, ?_, fun _ => blockCalls_flags, ?_, closed, closing,
    held.finalize.counter.trans (Nat.mod_eq_of_lt short), ?_⟩
  · rw [blocks, blockCalls_values _ _ (by omega)]
  · rw [held.buflen, pendingCount_eq_zero_iff]
  · rw [finalize_h, held.flags]
    rfl

end Sys2Proof.Machine
end

section
/-! ## The mixing function (`41_compression_engine.md` R134, R135) -/

namespace Sys2Proof.Machine

/-! ### Rotation -/

/-- No bit is lost by a rotation, so it can be undone (R135). -/
theorem rotr_injective (n : Nat) (low : 0 < n) (high : n < 64) :
    Function.Injective (rotr · n) := by
  intro a b same
  refine BitVec.eq_of_getLsbD_eq fun i inWord => ?_
  have moved := congrArg (BitVec.getLsbD · ((i + (64 - n)) % 64)) same
  have back : ((i + (64 - n)) % 64 + n) % 64 = i := by omega
  simpa only [rotationLosesNoBit _ n _ low high (Nat.mod_lt _ (by omega)), back] using moved

theorem rotr_zero (n : Nat) : rotr 0#64 n = 0#64 := by simp [rotr]

/-! ### The two halves of G -/

/-- Four of the eight steps of R134: one message word `x`, the rotations by `r` and `k`. -/
def gHalf (r k : Nat) (x : Word) (q : Word × Word × Word × Word) : Word × Word × Word × Word :=
  let a := q.1 + q.2.1 + x
  let d := rotr (q.2.2.2 ^^^ a) r
  let c := q.2.2.1 + d
  (a, rotr (q.2.1 ^^^ c) k, c, d)

theorem gMix_eq_halves (a b c d x y : Word) :
    gMix a b c d x y = gHalf 16 63 y (gHalf 32 24 x (a, b, c, d)) := rfl

/-- Each step is invertible (R135): from the results the words are found again, the last one
written first. -/
theorem gHalf_injective (r k : Nat) (x : Word) (hr : 0 < r ∧ r < 64) (hk : 0 < k ∧ k < 64) :
    Function.Injective (gHalf r k x) := by
  rintro ⟨a, b, c, d⟩ ⟨a', b', c', d'⟩ same
  simp only [gHalf, Prod.mk.injEq] at same
  obtain ⟨sameA, sameB, sameC, sameD⟩ := same
  have c_eq : c = c' := by rwa [sameD, BitVec.add_left_inj] at sameC
  have b_eq : b = b' := by
    have mixed := rotr_injective k hk.1 hk.2 sameB
    rwa [sameC, BitVec.xor_left_inj] at mixed
  have d_eq : d = d' := by
    have mixed := rotr_injective r hr.1 hr.2 sameD
    rwa [sameA, BitVec.xor_left_inj] at mixed
  have a_eq : a = a' := by rwa [b_eq, BitVec.add_left_inj, BitVec.add_left_inj] at sameA
  rw [a_eq, b_eq, c_eq, d_eq]

theorem gHalf_zero (r k : Nat) : gHalf r k 0 (0, 0, 0, 0) = (0, 0, 0, 0) := by
  simp [gHalf, rotr_zero]

/-- Settles O32: both halves are injective, and there are only finitely many quadruples. -/
theorem mixingIsABijection : Obligations.MixingIsABijection := by
  constructor
  · intro x y
    have halves : (fun q : Word × Word × Word × Word => gMix q.1 q.2.1 q.2.2.1 q.2.2.2 x y) =
        gHalf 16 63 y ∘ gHalf 32 24 x := funext fun _ => gMix_eq_halves _ _ _ _ x y
    rw [← Finite.injective_iff_bijective, halves]
    exact (gHalf_injective 16 63 y (by decide) (by decide)).comp
      (gHalf_injective 32 24 x (by decide) (by decide))
  · rw [gMix_eq_halves, gHalf_zero, gHalf_zero]

end Sys2Proof.Machine
end

section
/-! ## The tables and the calls of one round (`41_compression_engine.md` R132, R133, R136) -/

namespace Sys2Proof.Machine

/-- Settles O34 by going through the twelve rows and the two halves of the groups. -/
theorem tablesArePermutations : Obligations.TablesArePermutations := by
  refine ⟨?rows, ?columns, ?diagonals⟩ <;> decide

/-! ### Writing the words of a group -/

namespace GGroup

/-- The words of `v` that a call on the group reads and writes. -/
def indices (q : GGroup) : List (Fin 16) := [q.a, q.b, q.c, q.d]

/-- The working vector with four words written at the group. -/
def write (q : GGroup) (w : Word × Word × Word × Word) (v : Vector Word 16) : Vector Word 16 :=
  (((v.set q.a w.1).set q.b w.2.1).set q.c w.2.2.1).set q.d w.2.2.2

variable {q p : GGroup} {i : Fin 16} (w u : Word × Word × Word × Word) (v : Vector Word 16)

theorem forall_indices {P : Fin 16 → Prop} :
    (∀ i ∈ q.indices, P i) ↔ P q.a ∧ P q.b ∧ P q.c ∧ P q.d := by
  simp [indices]

theorem not_mem_indices : i ∉ q.indices ↔
    i.val ≠ q.a.val ∧ i.val ≠ q.b.val ∧ i.val ≠ q.c.val ∧ i.val ≠ q.d.val := by
  simp [indices, Fin.ext_iff]

theorem write_get (outside : i ∉ q.indices) : (q.write w v)[i] = v[i] := by
  obtain ⟨ha, hb, hc, hd⟩ := not_mem_indices.mp outside
  simp [write, Ne.symm ha, Ne.symm hb, Ne.symm hc, Ne.symm hd]

theorem write_set_comm (x : Word) (outside : i ∉ q.indices) :
    q.write w (v.set i x) = (q.write w v).set i x := by
  obtain ⟨ha, hb, hc, hd⟩ := not_mem_indices.mp outside
  rw [write, Vector.set_comm _ _ ha, Vector.set_comm _ _ hb, Vector.set_comm _ _ hc,
    Vector.set_comm _ _ hd, write]

theorem write_comm (disjoint : List.Disjoint q.indices p.indices) :
    q.write w (p.write u v) = p.write u (q.write w v) := by
  obtain ⟨ha, hb, hc, hd⟩ := forall_indices.mp (List.disjoint_left.mp disjoint)
  rw [write, ← write_set_comm _ _ _ ha, ← write_set_comm _ _ _ hb, ← write_set_comm _ _ _ hc,
    ← write_set_comm _ _ _ hd]
  rfl

end GGroup

/-! ### Calls on disjoint groups -/

theorem gApply_eq_write (q : GGroup) (x y : Word) (v : Vector Word 16) :
    gApply q x y v = q.write (gMix v[q.a] v[q.b] v[q.c] v[q.d] x y) v := rfl

/-- A call reads only the words of its group, so it does not see what another group's call
wrote. -/
theorem gApply_write {q p : GGroup} (disjoint : List.Disjoint q.indices p.indices) (x y : Word)
    (u : Word × Word × Word × Word) (v : Vector Word 16) :
    gApply q x y (p.write u v) = p.write u (gApply q x y v) := by
  have unseen : ∀ i ∈ q.indices, (p.write u v)[i] = v[i] :=
    fun _ member => GGroup.write_get u v (disjoint member)
  obtain ⟨ha, hb, hc, hd⟩ := GGroup.forall_indices.mp unseen
  rw [gApply_eq_write, ha, hb, hc, hd, GGroup.write_comm _ _ _ disjoint, ← gApply_eq_write]

/-- Calls of `G` on disjoint groups commute (`20_memory.md` R61). -/
theorem gApply_comm {q p : GGroup} (disjoint : List.Disjoint q.indices p.indices)
    (x y x' y' : Word) (v : Vector Word 16) :
    gApply q x y (gApply p x' y' v) = gApply p x' y' (gApply q x y v) := by
  rw [gApply_eq_write p x' y' v, gApply_write disjoint, gApply_eq_write q x y v,
    gApply_write disjoint.symm, gApply_eq_write p x' y' v, GGroup.write_comm _ _ _ disjoint]

/-- The groups of one step are pairwise disjoint (R133). -/
theorem gGroups_disjoint (i j : Fin 8) (distinct : i ≠ j) (oneStep : i.val / 4 = j.val / 4) :
    List.Disjoint gGroups[i].indices gGroups[j].indices := by
  rw [List.disjoint_left]
  revert i j
  decide

/-- Settles O35: the calls work on disjoint groups. -/
theorem callsOfOneStepCommute : Obligations.CallsOfOneStepCommute :=
  fun _ _ _ i j distinct oneStep => gApply_comm (gGroups_disjoint i j distinct oneStep) _ _ _ _ _

end Sys2Proof.Machine
end

section
/-! ## COMPRESS as a list of operations (`41_compression_engine.md` R137 to R141) -/

namespace Sys2Proof.Machine

/-! ### Writing a vector word by word -/

/-- A vector whose words are replaced one after the other, each by a function of its old value. -/
def replaceWords {n : Nat} (g : Fin n → Word → Word) (l : List (Fin n)) (v : Vector Word n) :
    Vector Word n :=
  l.foldl (fun (v : Vector Word n) (i : Fin n) => v.set i (g i v[i])) v

theorem replaceWords_get {n : Nat} (g : Fin n → Word → Word) (l : List (Fin n)) (v : Vector Word n)
    (once : l.Nodup) (k : Fin n) :
    (replaceWords g l v)[k] = if k ∈ l then g k v[k] else v[k] := by
  induction l generalizing v with
  | nil => rfl
  | cons i l ih =>
    obtain ⟨fresh, once⟩ := List.nodup_cons.mp once
    rw [replaceWords, List.foldl_cons, ← replaceWords, ih _ once]
    by_cases here : k = i
    · subst here
      simp [fresh]
    · have elsewhere : i.val ≠ k.val := fun same => here (Fin.ext same.symm)
      simp [here, elsewhere]

/-- With every word replaced, each is a function of its own old value and of no other. -/
theorem replaceWords_finRange {n : Nat} (g : Fin n → Word → Word) (v : Vector Word n) :
    replaceWords g (List.finRange n) v = Vector.ofFn fun i => g i v[i] := by
  ext i hi : 1
  have all := replaceWords_get g _ v (List.nodup_finRange n) ⟨i, hi⟩
  simpa using all

/-- The same when the new words do not depend on the old ones. -/
theorem replaceWords_const {n : Nat} (g : Fin n → Word) (v : Vector Word n) :
    replaceWords (fun i _ => g i) (List.finRange n) v = Vector.ofFn g :=
  replaceWords_finRange _ v

/-! ### Operations that write one field -/

namespace Datapath

/-- The message words replaced. -/
def withM (p : Datapath) (m : Vector Word 16) : Datapath := { p with m := m }

/-- The working vector replaced. -/
def withV (p : Datapath) (v : Vector Word 16) : Datapath := { p with v := v }

/-- The chaining value replaced. -/
def withH (p : Datapath) (h : Vector Word 8) : Datapath := { p with h := h }

end Datapath

theorem runOps_append (l k : List MicroOp) (p : Datapath) :
    runOps (l ++ k) p = runOps k (runOps l p) := List.foldl_append

section
variable {α β : Type} (put : β → Datapath) (update : β → α → β)

theorem runOps_flatMap (ops : α → List MicroOp)
    (effect : ∀ w a, runOps (ops a) (put w) = put (update w a)) (l : List α) (w : β) :
    runOps (l.flatMap ops) (put w) = put (l.foldl update w) := by
  rw [runOps, List.foldl_flatMap]
  exact List.foldl_hom put effect

theorem runOps_map (op : α → MicroOp) (effect : ∀ w a, (op a).run (put w) = put (update w a))
    (l : List α) (w : β) : runOps (l.map op) (put w) = put (l.foldl update w) := by
  rw [runOps, List.foldl_map]
  exact List.foldl_hom put effect

end

/-! ### The four parts of the list -/

theorem runOps_loads (p : Datapath) :
    runOps ((List.finRange 16).map .loadWord) p = p.withM (messageWords p.buf) := by
  rw [messageWords, ← replaceWords_const _ p.m]
  exact runOps_map p.withM _ .loadWord (fun _ _ => rfl) _ p.m

theorem runOps_setUp (p : Datapath) :
    runOps ((List.finRange 16).map .setUp) p = p.withV (workingVector p.h p.t p.f) := by
  have built : workingVector p.h p.t p.f = Vector.ofFn p.setUpWord := by
    ext i hi : 1
    simp [Datapath.setUpWord]
  rw [built, ← replaceWords_const _ p.v]
  exact runOps_map p.withV _ .setUp (fun _ _ => rfl) _ p.v

theorem runOps_calls (p : Datapath) : runOps callOps p = p.withV (allRounds p.m p.v) :=
  runOps_flatMap p.withV (fun v r => roundStep p.m r v) _
    (fun v r => runOps_map p.withV (fun v j => gCall p.m r j v) _ (fun _ _ => rfl) callOrder v)
    (List.range Config.rounds) p.v

theorem runOps_feed (p : Datapath) :
    runOps ((List.finRange 8).map .feed) p = p.withH (feedForward p.h p.v) := by
  rw [feedForward, ← replaceWords_finRange (fun i w => w ^^^ p.v[i.val] ^^^ p.v[i.val + 8]) p.h]
  exact runOps_map p.withH _ .feed (fun _ _ => rfl) _ p.h

/-- Settles O36: each part of the list does what the line of R139 it stands for does, so the
left-over scratch is overwritten before it is read. -/
theorem compressIsAFixedOperationList : Obligations.CompressIsAFixedOperationList := by
  refine ⟨fun p => ?_, ?_, ?_, ?_, ?_⟩
  · rw [compressOps, runOps_append, runOps_append, runOps_append, runOps_loads, runOps_setUp,
      runOps_calls, runOps_feed]
    simp only [Datapath.withM, Datapath.withV, Datapath.withH, compressH]
  all_goals decide

end Sys2Proof.Machine
end

section
/-! ## CTEQ and its reads (`42_comparator.md` R160 to R162) -/

namespace Sys2Proof.Machine

/-! ### The verdict -/

theorem exec_cteq_done (tag : List Byte) (s : State) (done : s.engine.phase = .done) :
    exec (.cteq tag) s =
      .next { s with responses := ⟨.ok, [verdict s.engine tag]⟩ :: s.responses } := by
  rw [exec_effect, effect_cteq_done _ tag done]

/-- Settles O20: the verdict is that of equality with the digest held. -/
theorem cteqComparesWithTheHeldDigest : Obligations.CteqComparesWithTheHeldDigest := by
  intro tag s done
  rw [exec_cteq_done tag s done, verdict_eq, Engine.digest]

/-- Settles O22: strings of one length are equal when they agree at every index. -/
theorem comparatorDecidesEquality : Obligations.ComparatorDecidesEquality := by
  intro a b same
  rw [cteq_eq_true_iff a b same]
  constructor
  · rintro rfl i -
    rfl
  · intro agree
    refine List.ext_getElem same fun i inA inB => ?_
    have here := agree i inA
    rwa [List.getD_eq_getElem _ _ inA, List.getD_eq_getElem _ _ inB] at here

/-! ### The reads -/

theorem cteq_self (a : List Byte) : cteq a a = true :=
  (cteq_eq_true_iff a a rfl).mpr rfl

theorem cteq_comm (a b : List Byte) (same : a.length = b.length) : cteq a b = cteq b a := by
  rw [Bool.eq_iff_iff, cteq_eq_true_iff a b same, cteq_eq_true_iff b a same.symm, eq_comm]

/-- The record does not change the loop, and holds one index for each pair, whatever the bytes. -/
theorem cteqLogged_eq (i : Nat) (acc : Byte) (ps : List (Byte × Byte)) :
    cteqLogged i acc ps =
      (ps.foldl (fun acc p => acc ||| (p.1 ^^^ p.2)) acc, List.range' i ps.length) := by
  induction ps generalizing i acc with
  | nil => rfl
  | cons p ps ih => rw [cteqLogged, ih]; rfl

theorem cteqLogged_zip (a b : List Byte) (same : a.length = b.length) :
    cteqLogged 0 0 (a.zip b) = (cteqAcc a b, List.range a.length) := by
  rw [cteqLogged_eq, cteqAcc, List.length_zip, same, Nat.min_self, List.range_eq_range']

theorem tracedVerdict_eq (e : Engine) (tag : List Byte) :
    tracedVerdict e tag =
      (verdict e tag, if tag.length = e.outlen.val then List.range tag.length else []) := by
  by_cases size : tag.length = e.outlen.val
  · have same : e.digest.length = tag.length := (digest_length e).trans size.symm
    simp only [tracedVerdict, verdict, size, ne_eq, not_true, if_false, if_true,
      cteqLogged_zip _ _ same, digest_length, cteq, beq_iff_eq]
  · simp [tracedVerdict, verdict, size]

theorem tracedExec_cteq (tag : List Byte) (s : State) (done : s.engine.phase = .done) :
    tracedExec (.cteq tag) s =
      (exec (.cteq tag) s,
        ⟨[], if tag.length = s.engine.outlen.val then List.range tag.length else []⟩) := by
  simp [tracedExec, exec, execCteq, done, tracedVerdict_eq]

/-- Settles O23: equality is reflexive and symmetric, and the record is that of the length alone. -/
theorem comparatorReadsDependOnLengthOnly : Obligations.ComparatorReadsDependOnLengthOnly :=
  ⟨cteq_self, cteq_comm, cteqLogged_zip, tracedExec_cteq⟩

end Sys2Proof.Machine
end

section
/-! ## The pseudo-commands (`43_pseudo_commands.md` R171 to R176) -/

namespace Sys2Proof.Machine

/-! ### HASH -/

/-- Settles O46: the length of the message is not needed, since `blake2b_core` wraps where the
counter does. -/
theorem hashReturnsBlake2bCore : Obligations.HashReturnsBlake2bCore := by
  intro k chunks s low high _
  obtain ⟨t, hashed, -⟩ := hashMessage_digest k chunks s low high
  exact ⟨t, hashed⟩

/-! ### VERIFY and VERIFYC -/

/-- A finished session compares the tag with the digest of its message, and stays (R162). -/
theorem transact_cteq (tag : List Byte) {s : State} {k : Nat} {d : List Byte}
    (holds : s.engine.HoldsDone k d) :
    ∃ t, transact 0x4000 tag s =
        some (⟨.ok, [if tag = blake2bCore d k then 0x01 else 0x00]⟩, t) ∧
      t.engine.HoldsDone k d := by
  have answer := transact_encode (.cteq tag) s
  rw [effect_cteq_done _ tag holds.phase, verdict_eq, holds.digest_eq] at answer
  exact ⟨_, answer, holds⟩

/-- How the host reads the verdict byte. -/
theorem verdictByte_accepted_iff (P : Prop) [Decidable P] :
    ([if P then 0x01 else 0x00] == [(0x01 : Byte)]) = true ↔ P := by
  split <;> simpa

/-- `VERIFYC` on an open session (R174). -/
theorem verifyContinuation_holdsOpen (tag : List Byte) {s : State} {k : Nat} {d : List Byte}
    (holds : s.engine.HoldsOpen k d) :
    ∃ b t, verifyContinuation tag s = some (.verdict b, t) ∧ t.engine.HoldsDone k d ∧
      (b = true ↔ tag = blake2bCore d k) := by
  obtain ⟨closed, answered, holdsDone⟩ := transact_final holds
  obtain ⟨t, compared, stillDone⟩ := transact_cteq tag holdsDone
  refine ⟨_, t, ?_, stillDone, verdictByte_accepted_iff _⟩
  simp only [verifyContinuation, answered, reduceCtorEq, if_false, compared]

/-- `FINAL` without an open session is rejected and changes no register (R182). -/
theorem transact_final_other (s : State) (other : s.engine.phase ≠ .active) :
    ∃ t, transact 0x3000 [] s = some (⟨.errSeq, [s.engine.phase.code.setWidth 8]⟩, t) ∧
      t.engine = s.engine := by
  have answer := transact_encode .final s
  rw [effect_final_other _ other] at answer
  exact ⟨_, answer, rfl⟩

/-- `VERIFYC` without an open session ends at the rejection of `FINAL` (R174). -/
theorem verifyContinuation_other (tag : List Byte) (s : State) (other : s.engine.phase ≠ .active) :
    ∃ t, verifyContinuation tag s = some (.programmingError, t) ∧ t.engine = s.engine := by
  obtain ⟨t, rejected, same⟩ := transact_final_other s other
  exact ⟨t, by simp only [verifyContinuation, rejected, if_true], same⟩

/-- Settles O48: the phase decides which of the two ways `VERIFYC` goes. -/
theorem verifyContinuationConsumesTheSession :
    Obligations.VerifyContinuationConsumesTheSession :=
  fun _ _ tag s => ⟨verifyContinuation_holdsOpen tag, verifyContinuation_other tag s⟩

/-- `VERIFY` of a tag that has the length of a digest, from every state and for every cut of the
message (R173). -/
theorem verify_digestLength (chunks : List (List Byte)) (tag : List Byte) (s : State)
    (low : 1 ≤ tag.length) (high : tag.length ≤ 64) :
    ∃ b t, verify chunks tag s = some (b, t) ∧
      (b = true ↔ tag = blake2bCore chunks.flatten tag.length) := by
  obtain ⟨opened, accepted, holdsNothing⟩ := transact_init tag.length (by omega) (by omega) s
  rw [BitVec.ofInt_natCast] at accepted
  rw [Int.toNat_natCast] at holdsNothing
  obtain ⟨fed, sent, holdsMessage⟩ := sendMessage_holdsOpen chunks holdsNothing
  rw [List.nil_append] at holdsMessage
  obtain ⟨closed, answered, holdsDone⟩ := transact_final holdsMessage
  obtain ⟨t, compared, -⟩ := transact_cteq tag holdsDone
  have valid : ¬ (tag.length < 1 ∨ 64 < tag.length) := by omega
  refine ⟨_, t, ?_, verdictByte_accepted_iff _⟩
  simp only [verify, if_neg valid, accepted, sent, answered, compared]

/-- Settles O47: a tag of another length than a digest's fails before the first command. -/
theorem verifyDecidesTheTag : Obligations.VerifyDecidesTheTag := by
  intro chunks tag s _
  by_cases invalid : tag.length < 1 ∨ 64 < tag.length
  · have refused : verify chunks tag s = some (false, s) := if_pos invalid
    refine ⟨false, s, refused, ?_, fun _ => rfl⟩
    simp only [Bool.false_eq_true, false_iff]
    omega
  · obtain ⟨b, t, decided, correct⟩ := verify_digestLength chunks tag s (by omega) (by omega)
    refine ⟨b, t, decided, ?_, fun bad => absurd bad invalid⟩
    rw [correct]
    constructor
    · exact fun equal => ⟨by omega, by omega, equal⟩
    · exact fun ⟨_, _, equal⟩ => equal

/-! ### SELFTEST -/

/-- A known-answer run checks `blake2b_core` itself, so it does not depend on the state. -/
theorem knownAnswer_of_blake2bCore (message expected : List Byte) (s : State)
    (known : blake2bCore message 64 = expected) :
    ∃ t, knownAnswer message expected s = some (true, t) := by
  obtain ⟨t, hashed, -⟩ := hashMessage_digest 64 [message] s (by omega) (by omega)
  have size : Int.toNat 64 = 64 := rfl
  rw [List.flatten_singleton, size, known] at hashed
  exact ⟨t, by simp only [knownAnswer, hashed, decide_true]⟩

theorem blake2bCore_abc : blake2bCore [0x61, 0x62, 0x63] 64 = knownAbc := by decide +kernel

theorem blake2bCore_seq129 : blake2bCore (seqBytes 0 129) 64 = knownSeq129 := by decide +kernel

/-- `SELFTEST` passes when both its runs do. The definition is opened before it is applied: with the
fixed message in place, comparing the two sides would run the whole hash. -/
theorem selfTest_of_knownAnswers {s u t : State}
    (first : knownAnswer [0x61, 0x62, 0x63] knownAbc s = some (true, u))
    (second : knownAnswer (seqBytes 0 129) knownSeq129 u = some (true, t)) :
    selfTest true s = some (.passed, t) := by
  generalize opened : selfTest = procedure
  delta selfTest at opened
  subst opened
  simp only [first, second, if_true]

/-- `SELFTEST` with its optional second run passes from every state (R176). -/
theorem selfTest_passed (s : State) : ∃ t, selfTest true s = some (.passed, t) := by
  obtain ⟨u, first⟩ := knownAnswer_of_blake2bCore _ _ s blake2bCore_abc
  obtain ⟨t, second⟩ := knownAnswer_of_blake2bCore _ _ u blake2bCore_seq129
  exact ⟨t, selfTest_of_knownAnswers first second⟩

/-- Settles O49: the two digests of R176 are those of `blake2b_core`, which the runs compute from
every state. -/
theorem selfTestPassesAfterReset : Obligations.SelfTestPassesAfterReset := by
  obtain ⟨t, passed⟩ := selfTest_passed State.reset
  rw [Obligations.SelfTestPassesAfterReset, passed, Option.map_some]

end Sys2Proof.Machine
end

section
/-! ## The illegal words and payloads (`30_encoding.md` R71, R76; `60_exceptions.md` R183) -/

namespace Sys2Proof.Machine

/-! ### The fields of a word as digits of its number -/

theorem opField_toNat (cmd : CmdWord) : (opField cmd).toNat = cmd.toNat / 4096 := by
  have := cmd.isLt
  simp only [opField, BitVec.extractLsb'_toNat, Nat.shiftRight_eq_div_pow]
  omega

theorem rsvField_toNat (cmd : CmdWord) : (rsvField cmd).toNat = cmd.toNat / 256 % 16 := by
  simp only [rsvField, BitVec.extractLsb'_toNat, Nat.shiftRight_eq_div_pow]

theorem argField_eq_ofNat (cmd : CmdWord) : argField cmd = BitVec.ofNat 8 (cmd.toNat % 256) := by
  apply BitVec.eq_of_toNat_eq
  simp [argField, BitVec.extractLsb'_toNat]

theorem highByte_eq_ofNat (cmd : CmdWord) : highByte cmd = BitVec.ofNat 8 (cmd.toNat / 256) := by
  apply BitVec.eq_of_toNat_eq
  simp [highByte, BitVec.extractLsb'_toNat, Nat.shiftRight_eq_div_pow]

/-! ### The four cases -/

theorem opField_eq_iff (cmd : CmdWord) (n : BitVec 4) :
    opField cmd = n ↔ cmd.toNat / 4096 = n.toNat := by
  rw [← BitVec.toNat_inj, opField_toNat]

theorem rsvField_eq_zero_iff (cmd : CmdWord) : rsvField cmd = 0 ↔ cmd.toNat / 256 % 16 = 0 := by
  rw [← BitVec.toNat_inj, rsvField_toNat]
  rfl

theorem argField_eq_zero_iff (cmd : CmdWord) : argField cmd = 0 ↔ cmd.toNat % 256 = 0 := by
  rw [← BitVec.toNat_inj, argField_eq_ofNat, BitVec.toNat_ofNat, Nat.mod_mod]
  rfl

/-- The cases of R76, one `omega` for each way through the tests of R78. -/
theorem decode_illegal_iff (cmd : CmdWord) (payload : List Byte) :
    (∃ c, decode cmd payload = .illegal c) ↔
      (cmd.toNat / 4096 = 0 ∨ 5 ≤ cmd.toNat / 4096) ∨
      cmd.toNat / 256 % 16 ≠ 0 ∨
      (2 ≤ cmd.toNat / 4096 ∧ cmd.toNat / 4096 ≤ 4 ∧ cmd.toNat % 256 ≠ 0) ∨
      ((cmd.toNat / 4096 = 1 ∨ cmd.toNat / 4096 = 3) ∧ payload.length ≠ 0) := by
  have illegal (c : IllegalCause) : ∃ c', Decoded.illegal c = .illegal c' := ⟨c, rfl⟩
  have legal (i : Instr) : ¬ ∃ c, Decoded.instr i = .illegal c := nofun
  generalize decoded : decode cmd payload = answer
  simp only [decode, ne_eq, ite_not, rsvField_eq_zero_iff, argField_eq_zero_iff, opField_eq_iff,
    ← List.length_eq_zero_iff, BitVec.reduceToNat] at decoded
  split_ifs at decoded <;> subst decoded <;>
    simp only [illegal, legal, true_iff, false_iff] <;> omega

/-- Settles O9: the tests of R78 fire in the four cases of R76, and the rejection records the two
bytes of the word. -/
theorem illegalCommandsAreRejected : Obligations.IllegalCommandsAreRejected := by
  intro cmd payload
  refine ⟨decode_illegal_iff cmd payload, fun s c decoded => ?_⟩
  rw [runCommand_of_illegal decoded, ← argField_eq_ofNat, ← highByte_eq_ofNat]
  rfl

end Sys2Proof.Machine
end

section
/-! ## Rejections (`60_exceptions.md` R180 to R187) -/

namespace Sys2Proof.Machine

/-! ### The rejections of a decoded command -/

/-- The command is `INIT` of a size out of range (R181). -/
def SizeOutOfRange (i : Instr) : Prop :=
  ∃ arg, i = .init arg ∧ ¬ (1 ≤ arg.toNat ∧ arg.toNat ≤ 64)

/-- The command is not accepted in the phase, whatever its operand (R182). -/
def OutOfSequence (phase : Phase) : Instr → Prop
  | .init _ => False
  | .update _ => phase ≠ .active
  | .final => phase ≠ .active
  | .cteq _ => phase ≠ .done

theorem outOfSequence_iff (phase : Phase) (i : Instr) :
    OutOfSequence phase i ↔
      (∃ d, i = .update d) ∧ phase ≠ .active ∨ i = .final ∧ phase ≠ .active ∨
        (∃ d, i = .cteq d) ∧ phase ≠ .done := by
  cases i <;> simp [OutOfSequence]

/-- At most one of the tests for range and phase fires, by the command. -/
theorem SizeOutOfRange.not_outOfSequence {i : Instr} (bad : SizeOutOfRange i)
    (phase : Phase) : ¬ OutOfSequence phase i := by
  obtain ⟨arg, rfl, -⟩ := bad
  exact id

theorem effect_sizeOutOfRange (e : Engine) {i : Instr} (bad : SizeOutOfRange i) :
    ∃ info, effect e i = (e, ⟨.errRange, info⟩) := by
  obtain ⟨arg, rfl, invalid⟩ := bad
  exact ⟨_, effect_init_range e arg invalid⟩

theorem effect_outOfSequence (e : Engine) {i : Instr} (bad : OutOfSequence e.phase i) :
    effect e i = (e, ⟨.errSeq, [e.phase.code.setWidth 8]⟩) := by
  cases i with
  | init arg => exact bad.elim
  | update data => exact effect_update_other e data bad
  | final => exact effect_final_other e bad
  | cteq tag => exact effect_cteq_other e tag bad

theorem effect_accepted_status (e : Engine) {i : Instr} (size : ¬ SizeOutOfRange i)
    (sequence : ¬ OutOfSequence e.phase i) : (effect e i).2.status = .ok := by
  cases i with
  | init arg =>
    have valid : 1 ≤ arg.toNat ∧ arg.toNat ≤ 64 :=
      not_not.mp fun bad => size ⟨arg, rfl, bad⟩
    rw [effect_init_ok e arg valid.1 valid.2]
  | update data => rw [effect_update_active e data (not_not.mp sequence)]
  | final => rw [effect_final_active e (not_not.mp sequence)]
  | cteq tag => rw [effect_cteq_done e tag (not_not.mp sequence)]

/-- All that a decoded command can do: it is accepted, or one test fires and no register changes. -/
theorem effect_cases (e : Engine) (i : Instr) :
    (¬ SizeOutOfRange i ∧ ¬ OutOfSequence e.phase i ∧ (effect e i).2.status = .ok) ∨
    (SizeOutOfRange i ∧ ¬ OutOfSequence e.phase i ∧
      ∃ info, effect e i = (e, ⟨.errRange, info⟩)) ∨
    (¬ SizeOutOfRange i ∧ OutOfSequence e.phase i ∧
      ∃ info, effect e i = (e, ⟨.errSeq, info⟩)) := by
  by_cases range : SizeOutOfRange i
  · exact .inr (.inl ⟨range, range.not_outOfSequence _, effect_sizeOutOfRange e range⟩)
  · by_cases sequence : OutOfSequence e.phase i
    · exact .inr (.inr ⟨range, sequence, _, effect_outOfSequence e sequence⟩)
    · exact .inl ⟨range, sequence, effect_accepted_status e range sequence⟩

theorem effect_rejected (e : Engine) (i : Instr) (rejected : (effect e i).2.status ≠ .ok) :
    (effect e i).1 = e := by
  obtain ⟨-, -, accepted⟩ | ⟨-, -, info, changed⟩ | ⟨-, -, info, changed⟩ := effect_cases e i
  · exact absurd accepted rejected
  · rw [changed]
  · rw [changed]

theorem effect_status_iff (e : Engine) (i : Instr) :
    (effect e i).2.status ≠ .errIllegal ∧
      ((effect e i).2.status = .errRange ↔ SizeOutOfRange i) ∧
      ((effect e i).2.status = .errSeq ↔ OutOfSequence e.phase i) := by
  obtain ⟨range, sequence, status⟩ | ⟨range, sequence, info, changed⟩ |
    ⟨range, sequence, info, changed⟩ := effect_cases e i
  · simp [range, sequence, status]
  · simp [range, sequence, changed]
  · simp [range, sequence, changed]

/-! ### Commands from their word -/

theorem commandEffect_of_instr {cmd : CmdWord} {payload : List Byte} {i : Instr}
    (decoded : decode cmd payload = .instr i) (e : Engine) :
    commandEffect e cmd payload = effect e i := by
  simp only [commandEffect, decoded]

theorem commandEffect_of_illegal {cmd : CmdWord} {payload : List Byte} {c : IllegalCause}
    (decoded : decode cmd payload = .illegal c) (e : Engine) :
    commandEffect e cmd payload = (e, (Rejection.illegalCommand cmd).response) := by
  simp only [commandEffect, decoded]

/-- Settles O26: an illegal command leaves the registers, and so does a decoded one that a test
rejects. -/
theorem rejectedCommandsChangeNothing : Obligations.RejectedCommandsChangeNothing := by
  intro cmd payload s
  refine ⟨_, _, runCommand_effect cmd payload s, rfl, rfl, ?_⟩
  cases decoded : decode cmd payload with
  | instr i =>
    rw [commandEffect_of_instr decoded]
    exact effect_rejected s.engine i
  | illegal c =>
    rw [commandEffect_of_illegal decoded]
    exact fun _ => rfl

/-- Settles O27: a word that decodes is tested for range and phase, and one that does not is
answered before either test. -/
theorem encodingIsTestedFirst : Obligations.EncodingIsTestedFirst := by
  intro cmd payload s
  refine ⟨_, _, runCommand_effect cmd payload s, rfl, ?_⟩
  cases decoded : decode cmd payload with
  | instr i =>
    obtain ⟨illegal, range, sequence⟩ := effect_status_iff s.engine i
    simp only [commandEffect_of_instr decoded, illegal, range, sequence, outOfSequence_iff,
      SizeOutOfRange, Decoded.instr.injEq, reduceCtorEq, exists_false, exists_eq_left', iff_self,
      and_self]
  | illegal c =>
    rw [commandEffect_of_illegal decoded]
    simp [Rejection.response, Rejection.status]

/-- Settles O12: `INIT` is tested for range in every phase. -/
theorem initOutOfRangeIsRejected : Obligations.InitOutOfRangeIsRejected := by
  intro arg s bad
  rw [exec_effect, effect_init_range _ arg (by omega)]

/-- Settles O25: the byte recorded is the code of the phase. -/
theorem commandsOutOfSequenceAreRejected : Obligations.CommandsOutOfSequenceAreRejected := by
  intro i s bad
  have sequence : OutOfSequence s.engine.phase i := by cases i <;> exact bad
  rw [exec_effect, effect_outOfSequence _ sequence]
  cases s.engine.phase <;> rfl

/-- `CTEQ` of anything but the digest held (R185, `42_comparator.md` R162). -/
theorem exec_cteq_of_ne (tag : List Byte) (s : State) (done : s.engine.phase = .done)
    (wrong : tag ≠ s.engine.digest) :
    exec (.cteq tag) s = .next { s with responses := ⟨.ok, [0x00]⟩ :: s.responses } := by
  rw [exec_cteq_done tag s done, verdict_eq, if_neg wrong]

/-- Settles O21: the digest held has length `outlen`, so a tag of another length differs from it
too. -/
theorem malformedTagsLookLikeWrongTags : Obligations.MalformedTagsLookLikeWrongTags := by
  intro tag wrong s done malformed _ differs
  have alsoDiffers : tag ≠ s.engine.digest := by
    rintro rfl
    exact malformed (digest_length s.engine)
  have answer := exec_cteq_of_ne tag s done alsoDiffers
  exact ⟨answer.trans (exec_cteq_of_ne wrong s done differs).symm, _, answer, rfl, rfl⟩

end Sys2Proof.Machine
end

section
/-! ## Completion, alone and in a system of engines (`60_exceptions.md` R191, R196) -/

namespace Sys2Proof.Machine

/-- Settles O28: a step waits or makes a move, and every move is answered. -/
theorem everyStepCompletes : Obligations.EveryStepCompletes := by
  intro s
  obtain ⟨-, waits⟩ | ⟨move, rest, -, moves⟩ := step_cases s
  · exact ⟨s, waits⟩
  · exact ⟨_, moves.trans (runMove_effect move _)⟩

theorem System.stepAt_next {n : Nat} {y : System n} {i : Fin n} {t : State}
    (answered : step y[i] = .next t) : y.stepAt i = .next (y.set i t) := by
  simp only [System.stepAt, answered]

theorem runSteps_succ {s t : State} (answered : step s = .next t) (k : Nat) :
    runSteps (k + 1) s = runSteps k t := by
  simp only [runSteps, answered]

/-- By induction on the schedule: its first step moves the engine it names and leaves the others
where they are. -/
theorem System.run_alone {n : Nat} (schedule : List (Fin n)) (y : System n) :
    ∃ z : System n, System.run schedule y = .next z ∧
      ∀ i : Fin n, runSteps (schedule.count i) y[i] = .next z[i] := by
  induction schedule generalizing y with
  | nil => exact ⟨y, rfl, fun _ => rfl⟩
  | cons j rest ih =>
    obtain ⟨t, answered⟩ := everyStepCompletes y[j]
    obtain ⟨z, completes, alone⟩ := ih (y.set j t)
    refine ⟨z, by simp only [System.run, System.stepAt_next answered, completes], fun i => ?_⟩
    by_cases named : j = i
    · subst named
      rw [List.count_cons_self, runSteps_succ answered]
      simpa using alone j
    · have other : j.val ≠ i.val := fun same => named (Fin.ext same)
      rw [List.count_cons_of_ne named]
      simpa [Vector.getElem_set_ne _ _ other] using alone i

/-- Settles O51, which holds of a system of any size. -/
theorem instancesRunAsIfAlone : Obligations.InstancesRunAsIfAlone :=
  fun _ => System.run_alone

end Sys2Proof.Machine
end

section
/-! ## The registers after a command and after reset (`70_reset_and_hazards.md` R210 to R213,
R224) -/

namespace Sys2Proof.Machine

/-! ### All that a command can do to the registers -/

/-- A decoded command leaves the registers as they are, or it is an accepted `INIT`, or it writes what
`UPDATE` or `FINAL` writes to an open session. -/
theorem effect_registers (e : Engine) (i : Instr) :
    (effect e i).1 = e ∨
    (∃ arg outlen, i = .init arg ∧ 1 ≤ arg.toNat ∧ arg.toNat ≤ 64 ∧ outlen.val = arg.toNat ∧
      (effect e i).1 = openSession arg outlen) ∨
    (e.phase = .active ∧
      ((∃ data, (effect e i).1 = absorb e data) ∨ (effect e i).1 = finalize e)) := by
  cases i with
  | init arg =>
    by_cases size : 1 ≤ arg.toNat ∧ arg.toNat ≤ 64
    · rw [effect_init_ok e arg size.1 size.2]
      exact .inr (.inl ⟨arg, _, rfl, size.1, size.2, rfl, rfl⟩)
    · rw [effect_init_range e arg size]
      exact .inl rfl
  | update data =>
    by_cases active : e.phase = .active
    · rw [effect_update_active e data active]
      exact .inr (.inr ⟨active, .inl ⟨data, rfl⟩⟩)
    · rw [effect_update_other e data active]
      exact .inl rfl
  | final =>
    by_cases active : e.phase = .active
    · rw [effect_final_active e active]
      exact .inr (.inr ⟨active, .inr rfl⟩)
    · rw [effect_final_other e active]
      exact .inl rfl
  | cteq tag =>
    by_cases done : e.phase = .done
    · rw [effect_cteq_done e tag done]
      exact .inl rfl
    · rw [effect_cteq_other e tag done]
      exact .inl rfl

/-- The same of every word and payload: an illegal command leaves the registers too. -/
theorem commandEffect_registers (e : Engine) (cmd : CmdWord) (payload : List Byte) :
    (commandEffect e cmd payload).1 = e ∨
    (∃ arg outlen, decode cmd payload = .instr (.init arg) ∧ 1 ≤ arg.toNat ∧ arg.toNat ≤ 64 ∧
      outlen.val = arg.toNat ∧ (commandEffect e cmd payload).1 = openSession arg outlen) ∨
    (e.phase = .active ∧
      ((∃ data, (commandEffect e cmd payload).1 = absorb e data) ∨
        (commandEffect e cmd payload).1 = finalize e)) := by
  cases decoded : decode cmd payload with
  | instr i =>
    simp only [commandEffect_of_instr decoded, Decoded.instr.injEq]
    exact effect_registers e i
  | illegal c =>
    rw [commandEffect_of_illegal decoded]
    exact .inl rfl

/-- Settles O29: `UPDATE` and `FINAL` do not write `outlen`. -/
theorem outlenIsFixedForTheSession : Obligations.OutlenIsFixedForTheSession := by
  intro cmd payload s t answered
  rw [runCommand_effect] at answered
  cases answered
  obtain same | ⟨arg, outlen, decoded, low, high, size, opened⟩ | ⟨-, ⟨data, absorbed⟩ | closed⟩ :=
    commandEffect_registers s.engine cmd payload
  · exact .inl (congrArg Engine.outlen same)
  · exact .inr ⟨arg, decoded, low, high, by rw [opened, openSession_outlen, size]⟩
  · exact .inl (by rw [absorbed, absorb_outlen])
  · exact .inl (by rw [closed, finalize_outlen])

/-! ### The reset event -/

/-- Every command that changes a register ends in phase `ACTIVE` or `DONE` (R210). -/
theorem commandEffect_of_idle (e : Engine) (cmd : CmdWord) (payload : List Byte)
    (idle : (commandEffect e cmd payload).1.phase = .idle) :
    (commandEffect e cmd payload).1 = e := by
  obtain same | ⟨arg, outlen, -, -, -, -, opened⟩ | ⟨active, ⟨data, absorbed⟩ | closed⟩ :=
    commandEffect_registers e cmd payload
  · exact same
  · simp [opened] at idle
  · simp [absorbed, active] at idle
  · simp [closed] at idle

/-- Settles O3: the registers after reset are those of R37; and to change a register outside an open
session, a command has to be an accepted `INIT`. -/
theorem resetEventClearsEveryRegister : Obligations.ResetEventClearsEveryRegister := by
  constructor
  · intro s rest pending
    exact ⟨_, step_of_pending pending, rfl, rfl, rfl, rfl, rfl, by simp [Engine.reset], rfl, rfl,
      by simp [Engine.reset]⟩
  · intro s t cmd payload answered
    rw [runMove_effect] at answered
    cases answered
    constructor
    · intro idle
      have same := commandEffect_of_idle s.engine cmd payload idle
      exact ⟨(congrArg Engine.phase same).symm.trans idle, same⟩
    · intro done
      obtain same | ⟨arg, -, decoded, low, high, -⟩ | ⟨active, -⟩ :=
        commandEffect_registers s.engine cmd payload
      · exact .inl same
      · exact .inr ⟨arg, decoded, low, high⟩
      · exact absurd (done.symm.trans active) (by decide)

/-- Settles O4: the move that was cut is a reset, whatever its command had done. -/
theorem resetDuringACommandLosesItsResponse :
    Obligations.ResetDuringACommandLosesItsResponse := by
  intro s cmd payload rest pending
  rw [step_of_pending pending, runMove_effect]
  rfl

/-- Settles O5: phase `IDLE` is neither of the phases the other commands need. -/
theorem afterResetOnlyInitIsAccepted : Obligations.AfterResetOnlyInitIsAccepted := by
  intro s i reset
  refine ⟨_, _, exec_effect i s, rfl, rfl, ?_⟩
  rw [reset]
  cases i with
  | init arg =>
    by_cases size : 1 ≤ arg.toNat ∧ arg.toNat ≤ 64
    · simp [effect_init_ok _ arg size.1 size.2, size]
    · simp only [effect_init_range _ arg size, if_neg size, and_self]
  | update data => exact ⟨rfl, rfl⟩
  | final => exact ⟨rfl, rfl⟩
  | cteq tag => exact ⟨rfl, rfl⟩

end Sys2Proof.Machine
end

section
/-! ## Sessions do not leak into each other (`70_reset_and_hazards.md` R214) -/

namespace Sys2Proof.Machine

/-- From the same registers the same moves lead to the same registers and add the same responses
(`40_driver.md` R114), by induction on the moves. -/
theorem runMoves_of_same_registers (moves : List HostMove) (s₁ s₂ : State)
    (same : s₁.engine = s₂.engine) :
    ∃ t₁ t₂ new, runMoves moves s₁ = .next t₁ ∧ runMoves moves s₂ = .next t₂ ∧
      t₁.engine = t₂.engine ∧
      t₁.responses = new ++ s₁.responses ∧ t₂.responses = new ++ s₂.responses := by
  induction moves generalizing s₁ s₂ with
  | nil => exact ⟨s₁, s₂, [], rfl, rfl, same, rfl, rfl⟩
  | cons move moves ih =>
    obtain ⟨u₁, u₂, first, moves₁, moves₂, next, first₁, first₂, -⟩ :=
      outcomeDependsOnRegistersAndCommandOnly move s₁ s₂ same
    obtain ⟨t₁, t₂, later, runs₁, runs₂, last, later₁, later₂⟩ := ih u₁ u₂ next
    refine ⟨t₁, t₂, later ++ first, ?_, ?_, last, ?_, ?_⟩
    · simp only [runMoves, moves₁, runs₁]
    · simp only [runMoves, moves₂, runs₂]
    · rw [later₁, first₁, List.append_assoc]
    · rw [later₂, first₂, List.append_assoc]

/-- Settles O13: an accepted `INIT` leaves registers that are a function of the size alone, so all
that follows is the same. -/
theorem initForgetsTheSessionBefore : Obligations.InitForgetsTheSessionBefore := by
  intro arg moves s₁ s₂ low high
  rw [runMoves_present (exec_init_ok arg s₁ low high),
    runMoves_present (exec_init_ok arg s₂ low high)]
  obtain ⟨t₁, t₂, later, runs₁, runs₂, last, later₁, later₂⟩ := runMoves_of_same_registers moves
    ⟨openSession arg (Fin.ofNat 65 arg.toNat), s₁.host, ⟨.ok, []⟩ :: s₁.responses⟩
    ⟨openSession arg (Fin.ofNat 65 arg.toNat), s₂.host, ⟨.ok, []⟩ :: s₂.responses⟩ rfl
  exact ⟨t₁, t₂, later ++ [⟨.ok, []⟩], runs₁, runs₂, last, by simp [later₁], by simp [later₂]⟩

end Sys2Proof.Machine
end

section
/-! ## The work of a command (`70_reset_and_hazards.md` R229) -/

namespace Sys2Proof.Machine

/-- What R229 says of the work of an accepted command, by the command and the registers it meets. -/
def AcceptedWork (e : Engine) (w : Trace) : Instr → Prop
  | .init _ => w.compressions.length = 0
  | .update data => w.compressions.length = (e.buflen.val + data.length + 127) / 128 - 1
  | .final => w.compressions.length = 1
  | .cteq _ => w.compressions.length = 0 ∧ w.reads.length ≤ 64

theorem tracedExec_sizeOutOfRange {i : Instr} (bad : SizeOutOfRange i) (s : State) :
    tracedExec i s = (exec i s, ⟨[], []⟩) := by
  obtain ⟨arg, rfl, invalid⟩ := bad
  have rejected : ¬ SizeOk arg.toNat := by omega
  simp only [tracedExec, exec, execInit, dif_neg rejected, Trace.empty]

theorem tracedExec_outOfSequence {i : Instr} {s : State} (bad : OutOfSequence s.engine.phase i) :
    tracedExec i s = (exec i s, ⟨[], []⟩) := by
  cases i with
  | init arg => exact bad.elim
  | update data =>
    have other : s.engine.phase ≠ .active := bad
    simp only [tracedExec, exec, execUpdate, if_pos other, Trace.empty]
  | final =>
    have other : s.engine.phase ≠ .active := bad
    simp only [tracedExec, exec, execFinal, if_pos other, Trace.empty]
  | cteq tag =>
    have other : s.engine.phase ≠ .done := bad
    simp only [tracedExec, exec, execCteq, if_pos other, Trace.empty]

theorem tracedExec_accepted {i : Instr} {s : State} (size : ¬ SizeOutOfRange i)
    (sequence : ¬ OutOfSequence s.engine.phase i) :
    ∃ w, tracedExec i s = (exec i s, w) ∧ AcceptedWork s.engine w i := by
  cases i with
  | init arg =>
    have valid : 1 ≤ arg.toNat ∧ arg.toNat ≤ 64 := not_not.mp fun bad => size ⟨arg, rfl, bad⟩
    exact ⟨_, tracedExec_init arg s (by omega), rfl⟩
  | update data =>
    obtain ⟨-, -, calls⟩ := absorb_blocks s.engine data
    refine ⟨_, tracedExec_update data s (not_not.mp sequence), ?_⟩
    rw [AcceptedWork, calls, blockCalls_length]
    omega
  | final => exact ⟨_, tracedExec_final s (not_not.mp sequence), rfl⟩
  | cteq tag =>
    refine ⟨_, tracedExec_cteq tag s (not_not.mp sequence), rfl, ?_⟩
    split
    · rw [List.length_range]
      omega
    · exact Nat.zero_le 64

/-- The instrumented command gives the machine's outcome, and its record is empty or R229's. -/
theorem tracedExec_work (i : Instr) (s : State) :
    ∃ w, tracedExec i s = (exec i s, w) ∧
      ((effect s.engine i).2.status ≠ .ok → w = ⟨[], []⟩) ∧
      ((effect s.engine i).2.status = .ok → AcceptedWork s.engine w i) := by
  obtain ⟨size, sequence, accepted⟩ | ⟨size, -, info, changed⟩ | ⟨-, sequence, info, changed⟩ :=
    effect_cases s.engine i
  · obtain ⟨w, traced, work⟩ := tracedExec_accepted size sequence
    exact ⟨w, traced, fun rejected => absurd accepted rejected, fun _ => work⟩
  · exact ⟨_, tracedExec_sizeOutOfRange size s, fun _ => rfl, by simp [changed]⟩
  · exact ⟨_, tracedExec_outOfSequence sequence, fun _ => rfl, by simp [changed]⟩

theorem tracedCommand_of_instr {cmd : CmdWord} {payload : List Byte} {i : Instr}
    (decoded : decode cmd payload = .instr i) (s : State) :
    tracedCommand cmd payload s = tracedExec i s := by
  simp only [tracedCommand, decoded]

theorem tracedCommand_of_illegal {cmd : CmdWord} {payload : List Byte} {c : IllegalCause}
    (decoded : decode cmd payload = .illegal c) (s : State) :
    tracedCommand cmd payload s = (raise (.illegalCommand cmd) s, ⟨[], []⟩) := by
  simp only [tracedCommand, decoded, Trace.empty]

/-- Settles O45: a decoded command does its own work, and an illegal one is answered without any. -/
theorem workOfEachCommand : Obligations.WorkOfEachCommand := by
  intro cmd payload s
  cases decoded : decode cmd payload with
  | instr i =>
    obtain ⟨w, traced, rejected, accepted⟩ := tracedExec_work i s
    rw [exec_effect] at traced
    refine ⟨_, _, w, (runCommand_of_instr decoded s).trans (exec_effect i s),
      (tracedCommand_of_instr decoded s).trans traced, rfl, rejected, fun ok => ?_⟩
    have work := accepted ok
    cases i <;> exact work
  | illegal c =>
    exact ⟨_, _, _, runCommand_of_illegal decoded s, tracedCommand_of_illegal decoded s, rfl,
      fun _ => rfl, fun ok => Status.noConfusion ok⟩

end Sys2Proof.Machine
end
